-- ==== Sys2Proof/Word.lean ====
section
/-! DEFINITION. The word types of the CHIP-8 core: bytes, 16-bit words, register numbers and instruction
fields, at the widths of 00_scope.md R4 and 30_encoding.md R34. -/

namespace Sys2Proof

/-- A byte of memory or a general register (10_state.md R8). -/
abbrev Byte := BitVec 8

/-- A 16-bit value: `I`, `pc`, a stack entry, an opcode (10_state.md R10 to R12, 30_encoding.md R34). -/
abbrev Word := BitVec 16

/-- The number of a general register, 0 to 15 (30_encoding.md R35). -/
abbrev Reg := Fin 16

/-- A 12-bit address field `NNN` (30_encoding.md R34). -/
abbrev Addr12 := BitVec 12

/-- A 4-bit field of an opcode (00_scope.md section 6, "Nibble"). -/
abbrev Nibble := BitVec 4

/-- Sixteen key states, bit `k` set while key `k` is pressed (10_state.md R14, 60_exceptions.md R92). -/
abbrev Keys := BitVec 16

/-- The register `VF`, which several instructions also write as a flag (10_state.md R9). -/
def Reg.vf : Reg := 15

/-- The register `V0`, the offset of `JP V0, addr` (40_control_flow.md R53). -/
def Reg.v0 : Reg := 0

end Sys2Proof
end

