-- ==== Sys2Proof/Syntax.lean ====
section
/-! DEFINITION. The syntax: the decoded instruction record of 30_encoding.md R34 and the 34 instructions of its
R39 (spec/opcode_table.json), one constructor per row. Opcode numbers: UNVERIFIED, unsafe (log entry 8). -/

namespace Sys2Proof

/-- The decoded instruction record (30_encoding.md R34): the opcode and every field extracted from it. The fields
overlap; each instruction uses only those its rule names. -/
structure Record where
  /-- The whole 16-bit opcode. -/
  opcode : Word
  /-- The class, `opcode[15:12]`, the first dispatch key. -/
  cls : Nibble
  /-- `X`, `opcode[11:8]`, the first register index. -/
  x : Reg
  /-- `Y`, `opcode[7:4]`, the second register index. -/
  y : Reg
  /-- `N`, `opcode[3:0]`, the 4-bit immediate and secondary key of class 8. -/
  n : Nibble
  /-- `NN`, `opcode[7:0]`, the 8-bit immediate and secondary key of classes 0, E and F. -/
  nn : Byte
  /-- `NNN`, `opcode[11:0]`, the 12-bit address. -/
  nnn : Addr12
  deriving DecidableEq, Repr

/-- The instructions, one constructor per row of 30_encoding.md R39, in its order. -/
inductive Instr where
  /-- `CLS`, pattern `0*E0` (43_display.md R76). -/
  | cls
  /-- `RET`, pattern `0*EE` (40_control_flow.md R46). -/
  | ret
  /-- `JP addr`, pattern `1NNN` (40_control_flow.md R47). -/
  | jp (nnn : Addr12)
  /-- `CALL addr`, pattern `2NNN` (40_control_flow.md R48). -/
  | call (nnn : Addr12)
  /-- `SE Vx, byte`, pattern `3XNN` (40_control_flow.md R49). -/
  | seByte (x : Reg) (nn : Byte)
  /-- `SNE Vx, byte`, pattern `4XNN` (40_control_flow.md R50). -/
  | sneByte (x : Reg) (nn : Byte)
  /-- `SE Vx, Vy`, pattern `5XY*` (40_control_flow.md R51). -/
  | seReg (x y : Reg)
  /-- `LD Vx, byte`, pattern `6XNN` (41_alu.md R57). -/
  | ldByte (x : Reg) (nn : Byte)
  /-- `ADD Vx, byte`, pattern `7XNN` (41_alu.md R58). -/
  | addByte (x : Reg) (nn : Byte)
  /-- `LD Vx, Vy`, pattern `8XY0` (41_alu.md R59). -/
  | ldReg (x y : Reg)
  /-- `OR Vx, Vy`, pattern `8XY1` (41_alu.md R60). -/
  | orReg (x y : Reg)
  /-- `AND Vx, Vy`, pattern `8XY2` (41_alu.md R61). -/
  | andReg (x y : Reg)
  /-- `XOR Vx, Vy`, pattern `8XY3` (41_alu.md R62). -/
  | xorReg (x y : Reg)
  /-- `ADD Vx, Vy`, pattern `8XY4` (41_alu.md R63). -/
  | addReg (x y : Reg)
  /-- `SUB Vx, Vy`, pattern `8XY5` (41_alu.md R64). -/
  | subReg (x y : Reg)
  /-- `SHR Vx {, Vy}`, pattern `8XY6` (41_alu.md R65). -/
  | shr (x y : Reg)
  /-- `SUBN Vx, Vy`, pattern `8XY7` (41_alu.md R66). -/
  | subn (x y : Reg)
  /-- `SHL Vx {, Vy}`, pattern `8XYE` (41_alu.md R67). -/
  | shl (x y : Reg)
  /-- `SNE Vx, Vy`, pattern `9XY*` (40_control_flow.md R52). -/
  | sneReg (x y : Reg)
  /-- `LD I, addr`, pattern `ANNN` (42_index_memory.md R69). -/
  | ldI (nnn : Addr12)
  /-- `JP V0, addr`, pattern `BNNN` (40_control_flow.md R53). -/
  | jpV0 (nnn : Addr12)
  /-- `RND Vx, byte`, pattern `CXNN` (41_alu.md R68). -/
  | rnd (x : Reg) (nn : Byte)
  /-- `DRW Vx, Vy, nibble`, pattern `DXYN` (43_display.md R77). -/
  | drw (x y : Reg) (n : Nibble)
  /-- `SKP Vx`, pattern `EX9E` (44_keys_timers.md R78). -/
  | skp (x : Reg)
  /-- `SKNP Vx`, pattern `EXA1` (44_keys_timers.md R79). -/
  | sknp (x : Reg)
  /-- `LD Vx, DT`, pattern `FX07` (44_keys_timers.md R80). -/
  | ldVxDt (x : Reg)
  /-- `LD Vx, K`, pattern `FX0A` (44_keys_timers.md R81). -/
  | ldVxK (x : Reg)
  /-- `LD DT, Vx`, pattern `FX15` (44_keys_timers.md R82). -/
  | ldDtVx (x : Reg)
  /-- `LD ST, Vx`, pattern `FX18` (44_keys_timers.md R83). -/
  | ldStVx (x : Reg)
  /-- `ADD I, Vx`, pattern `FX1E` (42_index_memory.md R70). -/
  | addI (x : Reg)
  /-- `LD F, Vx`, pattern `FX29` (42_index_memory.md R71). -/
  | ldF (x : Reg)
  /-- `LD B, Vx`, pattern `FX33` (42_index_memory.md R72). -/
  | ldB (x : Reg)
  /-- `LD [I], Vx`, pattern `FX55` (42_index_memory.md R73). -/
  | storeRegs (x : Reg)
  /-- `LD Vx, [I]`, pattern `FX65` (42_index_memory.md R74). -/
  | loadRegs (x : Reg)
  deriving DecidableEq, Repr

/-- What a host may do to the block, each applied atomically and only between steps (00_scope.md R6). -/
inductive Command where
  /-- `reset`: construct the machine (70_reset_and_hazards.md R99). -/
  | reset
  /-- `load(image)`: write the program image at the entry point (70_reset_and_hazards.md R100). -/
  | load (image : List Byte)
  /-- `set_keys(k)`: sample the keypad (60_exceptions.md R92). -/
  | setKeys (k : Keys)
  /-- `step(r)`: execute one instruction with the random byte `r` (30_encoding.md R36). -/
  | step (r : Byte)
  /-- `tick`: decrement the timers (60_exceptions.md R89). -/
  | tick
  deriving DecidableEq, Repr

end Sys2Proof
end

