-- ==== Sys2Proof/Decode.lean ====
section
/-! DEFINITION. Decoding: the fields of 30_encoding.md R34, the dispatch of R38 over the opcode map of R39, the
unrecognized opcodes of R40 by name, and the encoder written from the same map. Opcode numbers: UNVERIFIED,
unsafe (log entry 8). Dispatch keys follow the spec's decision D8 (log entry 10). -/

namespace Sys2Proof

/-- The big-endian opcode of two consecutive bytes, the one at the lower address first (20_memory.md R24). -/
def opcodeOf (hi lo : Byte) : Word := (hi.setWidth 16 <<< 8) ||| lo.setWidth 16

/-- The byte of an opcode that lies at the lower address (20_memory.md R24). -/
def opcodeHi (op : Word) : Byte := op.extractLsb' 8 8

/-- The byte of an opcode that lies at the higher address (20_memory.md R24). -/
def opcodeLo (op : Word) : Byte := op.extractLsb' 0 8

/-- The decoder of 30_encoding.md R34 and R37: total, extracting every field from every opcode. -/
def decodeRecord (op : Word) : Record where
  opcode := op
  cls := op.extractLsb' 12 4
  x := (op.extractLsb' 8 4).toFin
  y := (op.extractLsb' 4 4).toFin
  n := op.extractLsb' 0 4
  nn := op.extractLsb' 0 8
  nnn := op.extractLsb' 0 12

/-- Why an opcode is unrecognized: the class whose secondary key matched no row (30_encoding.md R40). -/
inductive Unrecognized where
  /-- Class 0x0 with `NN` neither 0xE0 nor 0xEE (the `0NNN` "SYS" words among them). -/
  | system
  /-- Class 0x8 with `N` in 8..D or F. -/
  | arithmetic
  /-- Class 0xE with `NN` neither 0x9E nor 0xA1. -/
  | keySkip
  /-- Class 0xF with `NN` none of the nine of R39. -/
  | misc
  deriving DecidableEq, Repr

/-- What an opcode is: one of the 34 instructions, or unrecognized, which executes as a no-op (R40, R41). -/
inductive Decoded where
  /-- A row of 30_encoding.md R39. -/
  | instr (i : Instr)
  /-- No row of R39. -/
  | unrecognized (why : Unrecognized)
  deriving DecidableEq, Repr

/-- The secondary dispatch of class 0x0 on the low byte; bits 11:8 are ignored (30_encoding.md R38). -/
def dispatchSystem (r : Record) : Decoded :=
  if r.nn = 0xE0 then .instr .cls
  else if r.nn = 0xEE then .instr .ret
  else .unrecognized .system

/-- The secondary dispatch of class 0x8 on the low nibble (30_encoding.md R38). -/
def dispatchArithmetic (r : Record) : Decoded :=
  if r.n = 0x0 then .instr (.ldReg r.x r.y)
  else if r.n = 0x1 then .instr (.orReg r.x r.y)
  else if r.n = 0x2 then .instr (.andReg r.x r.y)
  else if r.n = 0x3 then .instr (.xorReg r.x r.y)
  else if r.n = 0x4 then .instr (.addReg r.x r.y)
  else if r.n = 0x5 then .instr (.subReg r.x r.y)
  else if r.n = 0x6 then .instr (.shr r.x r.y)
  else if r.n = 0x7 then .instr (.subn r.x r.y)
  else if r.n = 0xE then .instr (.shl r.x r.y)
  else .unrecognized .arithmetic

/-- The secondary dispatch of class 0xE on the low byte (30_encoding.md R38). -/
def dispatchKeySkip (r : Record) : Decoded :=
  if r.nn = 0x9E then .instr (.skp r.x)
  else if r.nn = 0xA1 then .instr (.sknp r.x)
  else .unrecognized .keySkip

/-- The secondary dispatch of class 0xF on the low byte (30_encoding.md R38). -/
def dispatchMisc (r : Record) : Decoded :=
  if r.nn = 0x07 then .instr (.ldVxDt r.x)
  else if r.nn = 0x0A then .instr (.ldVxK r.x)
  else if r.nn = 0x15 then .instr (.ldDtVx r.x)
  else if r.nn = 0x18 then .instr (.ldStVx r.x)
  else if r.nn = 0x1E then .instr (.addI r.x)
  else if r.nn = 0x29 then .instr (.ldF r.x)
  else if r.nn = 0x33 then .instr (.ldB r.x)
  else if r.nn = 0x55 then .instr (.storeRegs r.x)
  else if r.nn = 0x65 then .instr (.loadRegs r.x)
  else .unrecognized .misc

/-- The first dispatch, on the class (30_encoding.md R38). The low nibble of classes 0x5 and 0x9 is not examined. -/
def dispatch (r : Record) : Decoded :=
  if r.cls = 0x0 then dispatchSystem r
  else if r.cls = 0x1 then .instr (.jp r.nnn)
  else if r.cls = 0x2 then .instr (.call r.nnn)
  else if r.cls = 0x3 then .instr (.seByte r.x r.nn)
  else if r.cls = 0x4 then .instr (.sneByte r.x r.nn)
  else if r.cls = 0x5 then .instr (.seReg r.x r.y)
  else if r.cls = 0x6 then .instr (.ldByte r.x r.nn)
  else if r.cls = 0x7 then .instr (.addByte r.x r.nn)
  else if r.cls = 0x8 then dispatchArithmetic r
  else if r.cls = 0x9 then .instr (.sneReg r.x r.y)
  else if r.cls = 0xA then .instr (.ldI r.nnn)
  else if r.cls = 0xB then .instr (.jpV0 r.nnn)
  else if r.cls = 0xC then .instr (.rnd r.x r.nn)
  else if r.cls = 0xD then .instr (.drw r.x r.y r.n)
  else if r.cls = 0xE then dispatchKeySkip r
  else dispatchMisc r

/-- What an opcode is: decode, then dispatch (30_encoding.md R36). -/
def decode (op : Word) : Decoded := dispatch (decodeRecord op)

/-- What the two bytes of an instruction are, the one at the lower address first (20_memory.md R24). -/
def decodeBytes (hi lo : Byte) : Decoded := decode (opcodeOf hi lo)

/-- The instruction, where the opcode is one. -/
def Decoded.toInstr? : Decoded → Option Instr
  | .instr i => some i
  | .unrecognized _ => none

/-- The opcode whose bits are `w`, numbered as spec/opcode_table.json numbers them: every row is one 16-bit word,
and every bit at or above `nbits` is 0. -/
def tableWord (nbits w : Nat) : Word := BitVec.ofNat 16 (w % 2 ^ nbits)

/-- The instruction the decoder reads from the two bytes of `tableWord nbits w`, laid out big-endian. -/
def decodeTableWord (nbits w : Nat) : Option Instr :=
  (decodeBytes (opcodeHi (tableWord nbits w)) (opcodeLo (tableWord nbits w))).toInstr?

/-! ### The encoder -/

/-- An opcode from its class, `X` and `NN` fields, each at its bits (30_encoding.md R34). -/
def wordXNN (cls : Nibble) (x : Reg) (nn : Byte) : Word :=
  (cls.setWidth 16 <<< 12) ||| ((BitVec.ofFin (w := 4) x).setWidth 16 <<< 8) ||| nn.setWidth 16

/-- An opcode from its class, `X`, `Y` and `N` fields, each at its bits (30_encoding.md R34). -/
def wordXYN (cls : Nibble) (x y : Reg) (n : Nibble) : Word :=
  (cls.setWidth 16 <<< 12) ||| ((BitVec.ofFin (w := 4) x).setWidth 16 <<< 8)
    ||| ((BitVec.ofFin (w := 4) y).setWidth 16 <<< 4) ||| n.setWidth 16

/-- An opcode from its class and `NNN` field, each at its bits (30_encoding.md R34). -/
def wordNNN (cls : Nibble) (nnn : Addr12) : Word := (cls.setWidth 16 <<< 12) ||| nnn.setWidth 16

/-- The opcode of an instruction, from the patterns of 30_encoding.md R39. DESIGN CHOICE: a nibble the pattern does
not examine (`*` in rows 1, 2, 7 and 19) is written 0. Safe (log entry 12). -/
def encode : Instr → Word
  | .cls => wordXNN 0x0 0 0xE0
  | .ret => wordXNN 0x0 0 0xEE
  | .jp nnn => wordNNN 0x1 nnn
  | .call nnn => wordNNN 0x2 nnn
  | .seByte x nn => wordXNN 0x3 x nn
  | .sneByte x nn => wordXNN 0x4 x nn
  | .seReg x y => wordXYN 0x5 x y 0x0
  | .ldByte x nn => wordXNN 0x6 x nn
  | .addByte x nn => wordXNN 0x7 x nn
  | .ldReg x y => wordXYN 0x8 x y 0x0
  | .orReg x y => wordXYN 0x8 x y 0x1
  | .andReg x y => wordXYN 0x8 x y 0x2
  | .xorReg x y => wordXYN 0x8 x y 0x3
  | .addReg x y => wordXYN 0x8 x y 0x4
  | .subReg x y => wordXYN 0x8 x y 0x5
  | .shr x y => wordXYN 0x8 x y 0x6
  | .subn x y => wordXYN 0x8 x y 0x7
  | .shl x y => wordXYN 0x8 x y 0xE
  | .sneReg x y => wordXYN 0x9 x y 0x0
  | .ldI nnn => wordNNN 0xA nnn
  | .jpV0 nnn => wordNNN 0xB nnn
  | .rnd x nn => wordXNN 0xC x nn
  | .drw x y n => wordXYN 0xD x y n
  | .skp x => wordXNN 0xE x 0x9E
  | .sknp x => wordXNN 0xE x 0xA1
  | .ldVxDt x => wordXNN 0xF x 0x07
  | .ldVxK x => wordXNN 0xF x 0x0A
  | .ldDtVx x => wordXNN 0xF x 0x15
  | .ldStVx x => wordXNN 0xF x 0x18
  | .addI x => wordXNN 0xF x 0x1E
  | .ldF x => wordXNN 0xF x 0x29
  | .ldB x => wordXNN 0xF x 0x33
  | .storeRegs x => wordXNN 0xF x 0x55
  | .loadRegs x => wordXNN 0xF x 0x65

/-- The bits of an opcode that the instruction's pattern examines or reads as a field; the others are `*` in
30_encoding.md R39 (rows 1, 2, 7 and 19). -/
def usedBits : Instr → Word
  | .cls => 0xF0FF
  | .ret => 0xF0FF
  | .jp _ => 0xFFFF
  | .call _ => 0xFFFF
  | .seByte _ _ => 0xFFFF
  | .sneByte _ _ => 0xFFFF
  | .seReg _ _ => 0xFFF0
  | .ldByte _ _ => 0xFFFF
  | .addByte _ _ => 0xFFFF
  | .ldReg _ _ => 0xFFFF
  | .orReg _ _ => 0xFFFF
  | .andReg _ _ => 0xFFFF
  | .xorReg _ _ => 0xFFFF
  | .addReg _ _ => 0xFFFF
  | .subReg _ _ => 0xFFFF
  | .shr _ _ => 0xFFFF
  | .subn _ _ => 0xFFFF
  | .shl _ _ => 0xFFFF
  | .sneReg _ _ => 0xFFF0
  | .ldI _ => 0xFFFF
  | .jpV0 _ => 0xFFFF
  | .rnd _ _ => 0xFFFF
  | .drw _ _ _ => 0xFFFF
  | .skp _ => 0xFFFF
  | .sknp _ => 0xFFFF
  | .ldVxDt _ => 0xFFFF
  | .ldVxK _ => 0xFFFF
  | .ldDtVx _ => 0xFFFF
  | .ldStVx _ => 0xFFFF
  | .addI _ => 0xFFFF
  | .ldF _ => 0xFFFF
  | .ldB _ => 0xFFFF
  | .storeRegs _ => 0xFFFF
  | .loadRegs _ => 0xFFFF

/-! ### The opcode table -/

/-- One row of spec/opcode_table.json: the mnemonic, and the bits that are examined with their values. -/
structure OpcodeRow where
  /-- The row's mnemonic as the table spells it. -/
  mnemonic : String
  /-- The examined bits. -/
  mask : Word
  /-- The values of the examined bits. -/
  pattern : Word
  deriving DecidableEq, Repr

/-- Whether an opcode matches a row. -/
def OpcodeRow.fits (row : OpcodeRow) (op : Word) : Bool := op &&& row.mask == row.pattern

/-- Rows 1 to 17 of 30_encoding.md R39. -/
def opcodeTableLow : List OpcodeRow :=
  [⟨"CLS", 0xF0FF, 0x00E0⟩, ⟨"RET", 0xF0FF, 0x00EE⟩, ⟨"JP_addr", 0xF000, 0x1000⟩,
   ⟨"CALL_addr", 0xF000, 0x2000⟩, ⟨"SE_Vx__byte", 0xF000, 0x3000⟩, ⟨"SNE_Vx__byte", 0xF000, 0x4000⟩,
   ⟨"SE_Vx__Vy", 0xF000, 0x5000⟩, ⟨"LD_Vx__byte", 0xF000, 0x6000⟩, ⟨"ADD_Vx__byte", 0xF000, 0x7000⟩,
   ⟨"LD_Vx__Vy", 0xF00F, 0x8000⟩, ⟨"OR_Vx__Vy", 0xF00F, 0x8001⟩, ⟨"AND_Vx__Vy", 0xF00F, 0x8002⟩,
   ⟨"XOR_Vx__Vy", 0xF00F, 0x8003⟩, ⟨"ADD_Vx__Vy", 0xF00F, 0x8004⟩, ⟨"SUB_Vx__Vy", 0xF00F, 0x8005⟩,
   ⟨"SHR_Vx____Vy", 0xF00F, 0x8006⟩, ⟨"SUBN_Vx__Vy", 0xF00F, 0x8007⟩]

/-- Rows 18 to 34 of 30_encoding.md R39. -/
def opcodeTableHigh : List OpcodeRow :=
  [⟨"SHL_Vx____Vy", 0xF00F, 0x800E⟩, ⟨"SNE_Vx__Vy", 0xF000, 0x9000⟩, ⟨"LD_I__addr", 0xF000, 0xA000⟩,
   ⟨"JP_V0__addr", 0xF000, 0xB000⟩, ⟨"RND_Vx__byte", 0xF000, 0xC000⟩, ⟨"DRW_Vx__Vy__nibble", 0xF000, 0xD000⟩,
   ⟨"SKP_Vx", 0xF0FF, 0xE09E⟩, ⟨"SKNP_Vx", 0xF0FF, 0xE0A1⟩, ⟨"LD_Vx__DT", 0xF0FF, 0xF007⟩,
   ⟨"LD_Vx__K", 0xF0FF, 0xF00A⟩, ⟨"LD_DT__Vx", 0xF0FF, 0xF015⟩, ⟨"LD_ST__Vx", 0xF0FF, 0xF018⟩,
   ⟨"ADD_I__Vx", 0xF0FF, 0xF01E⟩, ⟨"LD_F__Vx", 0xF0FF, 0xF029⟩, ⟨"LD_B__Vx", 0xF0FF, 0xF033⟩,
   ⟨"LD__I___Vx", 0xF0FF, 0xF055⟩, ⟨"LD_Vx___I", 0xF0FF, 0xF065⟩]

/-- The opcode map of 30_encoding.md R39 as masks and patterns, written apart from `dispatch` so that the two can
be proved to agree. -/
def opcodeTable : List OpcodeRow := opcodeTableLow ++ opcodeTableHigh

/-- The row of `opcodeTable` an instruction comes from. -/
def tableRow : Instr → OpcodeRow
  | .cls => ⟨"CLS", 0xF0FF, 0x00E0⟩
  | .ret => ⟨"RET", 0xF0FF, 0x00EE⟩
  | .jp _ => ⟨"JP_addr", 0xF000, 0x1000⟩
  | .call _ => ⟨"CALL_addr", 0xF000, 0x2000⟩
  | .seByte _ _ => ⟨"SE_Vx__byte", 0xF000, 0x3000⟩
  | .sneByte _ _ => ⟨"SNE_Vx__byte", 0xF000, 0x4000⟩
  | .seReg _ _ => ⟨"SE_Vx__Vy", 0xF000, 0x5000⟩
  | .ldByte _ _ => ⟨"LD_Vx__byte", 0xF000, 0x6000⟩
  | .addByte _ _ => ⟨"ADD_Vx__byte", 0xF000, 0x7000⟩
  | .ldReg _ _ => ⟨"LD_Vx__Vy", 0xF00F, 0x8000⟩
  | .orReg _ _ => ⟨"OR_Vx__Vy", 0xF00F, 0x8001⟩
  | .andReg _ _ => ⟨"AND_Vx__Vy", 0xF00F, 0x8002⟩
  | .xorReg _ _ => ⟨"XOR_Vx__Vy", 0xF00F, 0x8003⟩
  | .addReg _ _ => ⟨"ADD_Vx__Vy", 0xF00F, 0x8004⟩
  | .subReg _ _ => ⟨"SUB_Vx__Vy", 0xF00F, 0x8005⟩
  | .shr _ _ => ⟨"SHR_Vx____Vy", 0xF00F, 0x8006⟩
  | .subn _ _ => ⟨"SUBN_Vx__Vy", 0xF00F, 0x8007⟩
  | .shl _ _ => ⟨"SHL_Vx____Vy", 0xF00F, 0x800E⟩
  | .sneReg _ _ => ⟨"SNE_Vx__Vy", 0xF000, 0x9000⟩
  | .ldI _ => ⟨"LD_I__addr", 0xF000, 0xA000⟩
  | .jpV0 _ => ⟨"JP_V0__addr", 0xF000, 0xB000⟩
  | .rnd _ _ => ⟨"RND_Vx__byte", 0xF000, 0xC000⟩
  | .drw _ _ _ => ⟨"DRW_Vx__Vy__nibble", 0xF000, 0xD000⟩
  | .skp _ => ⟨"SKP_Vx", 0xF0FF, 0xE09E⟩
  | .sknp _ => ⟨"SKNP_Vx", 0xF0FF, 0xE0A1⟩
  | .ldVxDt _ => ⟨"LD_Vx__DT", 0xF0FF, 0xF007⟩
  | .ldVxK _ => ⟨"LD_Vx__K", 0xF0FF, 0xF00A⟩
  | .ldDtVx _ => ⟨"LD_DT__Vx", 0xF0FF, 0xF015⟩
  | .ldStVx _ => ⟨"LD_ST__Vx", 0xF0FF, 0xF018⟩
  | .addI _ => ⟨"ADD_I__Vx", 0xF0FF, 0xF01E⟩
  | .ldF _ => ⟨"LD_F__Vx", 0xF0FF, 0xF029⟩
  | .ldB _ => ⟨"LD_B__Vx", 0xF0FF, 0xF033⟩
  | .storeRegs _ => ⟨"LD__I___Vx", 0xF0FF, 0xF055⟩
  | .loadRegs _ => ⟨"LD_Vx___I", 0xF0FF, 0xF065⟩

end Sys2Proof
end

