-- ==== Sys2Proof/Config.lean ====
section
/-! DEFINITION. What the implementation fixes (the parameter table of 00_scope.md R4) and the one free value,
the random byte of each step. -/

namespace Sys2Proof

/-- `MEM_SIZE` (00_scope.md R4): bytes of memory. -/
def Config.memSize : Nat := 4096

/-- `ENTRY` (00_scope.md R4): where the program image is loaded and execution begins. -/
def Config.entry : Nat := 0x200

/-- `MAX_IMAGE` (00_scope.md R4): the largest loadable program image, in bytes. -/
def Config.maxImage : Nat := 3584

/-- `STACK_DEPTH` (00_scope.md R4): return-address entries. -/
def Config.stackDepth : Nat := 16

/-- `W` (00_scope.md R4): display width in pixels. -/
def Config.width : Nat := 64

/-- `H` (00_scope.md R4): display height in pixels. -/
def Config.height : Nat := 32

/-- `TIMER_HZ` (00_scope.md R4): timer ticks, and nominal frames, per second. -/
def Config.timerHz : Nat := 60

/-- Glyphs 0 to 7 of `FONT` (20_memory.md R27). UNVERIFIED, unsafe: the spec takes the bytes from general
knowledge (log entry 7). -/
def Config.fontLow : List Byte :=
  [0xF0, 0x90, 0x90, 0x90, 0xF0,
   0x20, 0x60, 0x20, 0x20, 0x70,
   0xF0, 0x10, 0xF0, 0x80, 0xF0,
   0xF0, 0x10, 0xF0, 0x10, 0xF0,
   0x90, 0x90, 0xF0, 0x10, 0x10,
   0xF0, 0x80, 0xF0, 0x10, 0xF0,
   0xF0, 0x80, 0xF0, 0x90, 0xF0,
   0xF0, 0x10, 0x20, 0x40, 0x40]

/-- Glyphs 8 to F of `FONT` (20_memory.md R27). UNVERIFIED, unsafe, as `Config.fontLow` (log entry 7). -/
def Config.fontHigh : List Byte :=
  [0xF0, 0x90, 0xF0, 0x90, 0xF0,
   0xF0, 0x90, 0xF0, 0x10, 0xF0,
   0xF0, 0x90, 0xF0, 0x90, 0x90,
   0xE0, 0x90, 0xE0, 0x90, 0xE0,
   0xF0, 0x80, 0x80, 0x80, 0xF0,
   0xE0, 0x90, 0x90, 0x90, 0xE0,
   0xF0, 0x80, 0xF0, 0x80, 0xF0,
   0xF0, 0x80, 0xF0, 0x80, 0x80]

/-- `FONT` (00_scope.md R4, 20_memory.md R27): the 80 bytes at 0x000..0x04F after reset. -/
def Config.font : List Byte := Config.fontLow ++ Config.fontHigh

/-- `STEPS_PER_FRAME` for a `CLOCK_RATE` (00_scope.md R4, 60_exceptions.md R91). `CLOCK_RATE` is OPEN in the
spec and so an argument here (log entry 13). -/
def Config.stepsPerFrame (clockRate : Nat) : Nat := max 1 (clockRate / Config.timerHz)

/-- FREE VALUE. The random byte the host supplies with the `n`-th step it issues without having decided it
beforehand (00_scope.md R6, 41_alu.md R68, 93_implementation_defined.md I11: "a draw under no law").
It has no body: nothing can evaluate it or prove a value of it. Safe (log entry 1). -/
opaque Config.randByte : Nat → Byte

end Sys2Proof
end

