-- ==== Sys2Proof/Machine/State.lean ====
section
/-! DEFINITION. The state of the core, exactly the list of 10_state.md R18, with the block's ports
(00_scope.md R6 and R7) beside it in one field; its reset value (R19); and the reasons a step can stop. -/

namespace Sys2Proof
namespace Machine

/-- Memory: the cells that differ from the reset contents, addresses strictly rising (10_state.md R16). -/
abbrev Memory := List Host.Cell

/-- The display buffer, row by row: pixel `(x, y)` is bit `x` of row `y` (10_state.md R15). DESIGN CHOICE, safe:
the spec's index `y*64 + x` of 2048 bits is read as row `y`, bit `x` (log entry 11). -/
abbrev Display := Vector (BitVec 64) 32

/-- The output `step_status` (00_scope.md R7, 44_keys_timers.md R81). -/
inductive StepStatus where
  /-- The instruction completed. -/
  | done
  /-- `FX0A` found no key pressed and rewound `pc`. -/
  | awaitingKey
  deriving DecidableEq, Repr

/-- The output `load_status` (00_scope.md R7, 70_reset_and_hazards.md R100). -/
inductive LoadStatus where
  /-- No `load` has been issued since reset. -/
  | notIssued
  /-- The image was written. -/
  | loaded
  /-- The image was too large; nothing was written and no step may follow. -/
  | loadFailure
  deriving DecidableEq, Repr

/-- The ports of the block: none of it is state of the spec's machine (10_state.md R18), all of it is what passes
between the machine and its host. -/
structure Port where
  /-- The random byte supplied with the step being executed (00_scope.md R6). Free value, safe (log entry 1). -/
  rand : Byte
  /-- The status the last step returned. DESIGN CHOICE, safe (log entry 2). -/
  stepStatus : StepStatus
  /-- The status the last load returned. DESIGN CHOICE, safe (log entry 2). -/
  loadStatus : LoadStatus
  /-- How many free random bytes have been drawn. The model's own, safe (log entry 1). -/
  draws : Nat
  /-- The commands the host has decided to issue next, first one first. DESIGN CHOICE, unsafe (log entry 3). -/
  pending : List Command
  deriving DecidableEq, Repr

/-- The state of the core (10_state.md R18), and its ports. -/
structure State where
  /-- The general registers `V0` to `VF` (R8, R9). -/
  v : Vector Byte 16
  /-- The index register `I` (R10). -/
  i : Word
  /-- The program counter (R11). -/
  pc : Word
  /-- The return-address entries (R12). -/
  stack : Vector Word 16
  /-- The number of entries in use, 0 to 16 (R12). -/
  sp : Fin 17
  /-- The delay timer `DT` (R13). -/
  dt : Byte
  /-- The sound timer `ST` (R13). -/
  st : Byte
  /-- The keypad, bit `k` set while key `k` is pressed (R14). -/
  key : Keys
  /-- The display buffer (R15). -/
  disp : Display
  /-- Memory (R16). -/
  mem : Memory
  /-- Sticky: a `CALL` found the stack full (R17). -/
  stackOverflow : Bool
  /-- Sticky: a `RET` found the stack empty (R17). -/
  stackUnderflow : Bool
  /-- The block's inputs and outputs (00_scope.md R6, R7). -/
  port : Port
  deriving DecidableEq, Repr

/-- Why the machine stops. -/
inductive Fault where
  /-- Raised by a `step` command issued after `LoadFailure`: 70_reset_and_hazards.md R100 says that no step may
  follow, and gives such a step no effect. DESIGN CHOICE, safe (log entry 4). -/
  | stepAfterLoadFailure
  deriving DecidableEq, Repr

/-- Why an instruction has no meaning. -/
inductive Refusal where
  /-- Raised by an arm of `exec` that has no meaning yet; no arm of this model does. Safe. -/
  | notModelled (mnemonic : String)
  deriving DecidableEq, Repr

/-- The ports right after reset. The spec gives them no reset values; these are DESIGN CHOICE (log entries 1 to 3). -/
def Port.reset : Port where
  rand := 0
  stepStatus := .done
  loadStatus := .notIssued
  draws := 0
  pending := []

/-- The machine right after reset (10_state.md R19, 70_reset_and_hazards.md R99). The memory lists nothing, since
every byte holds its reset contents: the font table, then zeros. -/
def State.reset : State where
  v := Vector.replicate 16 0
  i := 0
  pc := BitVec.ofNat 16 Config.entry
  stack := Vector.replicate 16 0
  sp := 0
  dt := 0
  st := 0
  key := 0
  disp := Vector.replicate 32 0
  mem := []
  stackOverflow := false
  stackUnderflow := false
  port := Port.reset

end Machine
end Sys2Proof
end

