-- ==== Sys2Proof/Machine/Ops.lean ====
section
/-! DEFINITION. The named operations over memory, registers, the program counter, the return stack and the ports,
through which every meaning reads and writes the state. The core raises no exception (60_exceptions.md R84, R87),
so there is no operation that takes one or returns from one; the two anomalies that leave a record, stack
overflow and underflow, are the shared operations `callTo` and `returnFromCall`. -/

namespace Sys2Proof
namespace Machine

/-! ### Memory (20_memory.md) -/

/-- Address reduction (20_memory.md R21): an access is made at the low 12 bits of the address. -/
def phys (a : Nat) : Nat := a % Config.memSize

/-- What an unlisted address reads as: its reset contents, the font table then zeros (10_state.md R16,
70_reset_and_hazards.md R99). -/
def unlistedByte (a : Nat) : Byte := Config.font.getD a 0

/-- The byte a memory holds at a physical address. -/
def Memory.read : Memory → Nat → Byte
  | [], a => unlistedByte a
  | (b, w) :: m, a => if a = b then w else Memory.read m a

/-- List a cell before `m`, unless it holds what an unlisted address reads as. -/
def Memory.consCell (a : Nat) (v : Byte) (m : Memory) : Memory :=
  if v = unlistedByte a then m else (a, v) :: m

/-- The memory with the byte at a physical address replaced, in canonical form. -/
def Memory.write : Memory → Nat → Byte → Memory
  | [], a, v => Memory.consCell a v []
  | (b, w) :: m, a, v =>
    if a < b then Memory.consCell a v ((b, w) :: m)
    else if a = b then Memory.consCell a v m
    else (b, w) :: Memory.write m a v

/-- The canonical form from address `lo` on: addresses strictly rising and within memory, and no cell that holds
what an unlisted address reads as. -/
def Memory.wfFrom : Nat → Memory → Bool
  | _, [] => true
  | lo, (a, v) :: m => decide (lo ≤ a) && decide (a < Config.memSize) && (v != unlistedByte a) && Memory.wfFrom (a + 1) m

/-- The memory is in canonical form, so that equal memories are equal data. -/
def Memory.wf (m : Memory) : Bool := Memory.wfFrom 0 m

/-- The memory with bytes written at rising addresses from `a`, each reduced on its own (20_memory.md R23). -/
def Memory.writeBytes : Memory → Nat → List Byte → Memory
  | m, _, [] => m
  | m, a, b :: bs => Memory.writeBytes (m.write (phys a) b) (a + 1) bs

/-- `MemRead(a, 1)` (20_memory.md R22). -/
def State.memRead (s : State) (a : Nat) : Byte := s.mem.read (phys a)

/-- `MemWrite(a, 1, v)` (20_memory.md R23). -/
def State.memWrite (s : State) (a : Nat) (v : Byte) : State := { s with mem := s.mem.write (phys a) v }

/-! ### Registers (10_state.md) -/

/-- `V[r]` (10_state.md R8). -/
def State.getV (s : State) (r : Reg) : Byte := s.v[r.val]

/-- `V[r] <- b` (10_state.md R8). -/
def State.setV (s : State) (r : Reg) (b : Byte) : State := { s with v := s.v.set r.val b }

/-- `I <- w` (10_state.md R10). -/
def State.setI (s : State) (w : Word) : State := { s with i := w }

/-- `pc <- w` (10_state.md R11). -/
def State.setPc (s : State) (w : Word) : State := { s with pc := w }

/-- `DT <- b` (10_state.md R13). -/
def State.setDt (s : State) (b : Byte) : State := { s with dt := b }

/-- `ST <- b` (10_state.md R13). -/
def State.setSt (s : State) (b : Byte) : State := { s with st := b }

/-- `key <- k` (10_state.md R14). -/
def State.setKey (s : State) (k : Keys) : State := { s with key := k }

/-- The display buffer replaced (10_state.md R15). -/
def State.setDisp (s : State) (d : Display) : State := { s with disp := d }

/-- The ports replaced (00_scope.md R6, R7). -/
def State.setPort (s : State) (p : Port) : State := { s with port := p }

/-- The status the step returns (44_keys_timers.md R81). -/
def State.setStepStatus (s : State) (x : StepStatus) : State := s.setPort { s.port with stepStatus := x }

/-- The status the load returns (70_reset_and_hazards.md R100). -/
def State.setLoadStatus (s : State) (x : LoadStatus) : State := s.setPort { s.port with loadStatus := x }

/-- The commands the host is going to issue, replaced (log entry 3). -/
def State.setPending (s : State) (cs : List Command) : State := s.setPort { s.port with pending := cs }

/-- One more free random byte is drawn (log entry 1). -/
def State.countDraw (s : State) : State := s.setPort { s.port with draws := s.port.draws + 1 }

/-! ### The return stack (10_state.md R12) -/

/-- Push a return address on a stack that is not full: write `stack[sp]`, then increment `sp` (10_state.md R12). -/
def State.push (s : State) (w : Word) (room : s.sp.val < 16) : State :=
  { s with stack := s.stack.set s.sp.val w, sp := ⟨s.sp.val + 1, by omega⟩ }

/-- The top entry of a stack that is not empty, `stack[sp - 1]` (10_state.md R12). -/
def State.top (s : State) (used : 0 < s.sp.val) : Word := s.stack[s.sp.val - 1]'(by have := s.sp.isLt; omega)

/-- Remove the top entry: `sp` is decremented and the entry itself is left in place (40_control_flow.md R46). -/
def State.dropTop (s : State) : State := { s with sp := ⟨s.sp.val - 1, by have := s.sp.isLt; omega⟩ }

/-- `stack_overflow <- 1` (10_state.md R17). -/
def State.setOverflow (s : State) : State := { s with stackOverflow := true }

/-- `stack_underflow <- 1` (10_state.md R17). -/
def State.setUnderflow (s : State) : State := { s with stackUnderflow := true }

/-- A call to `target` (40_control_flow.md R48): push the advanced `pc` and jump, or, with the stack full, only set
`stack_overflow`. The policy for a full stack is the spec's decision D3 (log entry 10). -/
def callTo (target : Word) (s : State) : State :=
  if room : s.sp.val < 16 then (s.push s.pc room).setPc target else s.setOverflow

/-- A return (40_control_flow.md R46): pop into `pc`, or, with the stack empty, only set `stack_underflow`. The
policy for an empty stack is the spec's decision D4 (log entry 10). -/
def returnFromCall (s : State) : State :=
  if used : 0 < s.sp.val then s.dropTop.setPc (s.top used) else s.setUnderflow

/-! ### The program counter (40_control_flow.md R45) -/

/-- A skip adds a further 2 to `pc`, modulo 2^16 (40_control_flow.md R45). -/
def skipIf (c : Bool) (s : State) : State := if c then s.setPc (s.pc + 2) else s

/-- The rewind of `FX0A`: back to the instruction itself, modulo 2^16 (44_keys_timers.md R81). -/
def rewind (s : State) : State := s.setPc (s.pc - 2)

/-! ### Fetching (30_encoding.md R36) -/

/-- The opcode at `pc`: two bytes, each address reduced on its own (20_memory.md R21, R24). -/
def fetchOpcode (s : State) : Word := opcodeOf (s.memRead s.pc.toNat) (s.memRead (s.pc.toNat + 1))

/-- The start of `step(r)` (30_encoding.md R36): the random byte is supplied, `pc` advances by 2 modulo 2^16 before
dispatch, and the status is `Done` unless the instruction says otherwise. -/
def beginStep (r : Byte) (s : State) : State :=
  (s.setPc (s.pc + 2)).setPort { s.port with rand := r, stepStatus := .done }

/-- The state with an opcode stored, big-endian, where `pc` fetches (20_memory.md R24). -/
def storeOpcode (op : Word) (s : State) : State :=
  (s.memWrite s.pc.toNat (opcodeHi op)).memWrite (s.pc.toNat + 1) (opcodeLo op)

/-- The load status with a failed load forgotten, so that a step may follow. -/
def LoadStatus.runnable : LoadStatus → LoadStatus
  | .notIssued => .notIssued
  | .loaded => .loaded
  | .loadFailure => .loaded

/-- Nothing stands between the state and its next instruction: the host has no command pending and no load has
failed (log entry 15). -/
def readyToStep (s : State) : State := (s.setPending []).setLoadStatus s.port.loadStatus.runnable

end Machine
end Sys2Proof
end

