-- ==== Sys2Proof/Machine/Operands.lean ====
section
/-! DEFINITION. Every operand form (30_encoding.md R35): immediates zero-extended, registers by number, the index
register plus a small offset, and the keypad. -/

namespace Sys2Proof
namespace Machine

/-- `zext_16(NNN)` (30_encoding.md R35). -/
def addrOf (nnn : Addr12) : Word := nnn.setWidth 16

/-- `zext_16` of a byte (30_encoding.md R35). -/
def wordOfByte (b : Byte) : Word := b.setWidth 16

/-- The unreduced address `I + k` (20_memory.md R21, 42_index_memory.md); the access reduces it. -/
def indexAddr (s : State) (k : Nat) : Nat := s.i.toNat + k

/-- Whether the key a byte names is pressed; a number above 15 names no key and reads as not pressed
(44_keys_timers.md R78, the spec's decision D9, log entry 10). -/
def keyDown (s : State) (b : Byte) : Bool := decide (b.toNat < 16) && s.key.getLsbD b.toNat

/-- The least pressed key, if any: "scan keypad low-to-high index" (44_keys_timers.md R81). -/
def leastKey (k : Keys) : Option Reg := (List.finRange 16).find? (fun j => k.getLsbD j.val)

/-- The byte that holds a key number. -/
def byteOfKey (k : Reg) : Byte := BitVec.ofNat 8 k.val

/-- The hundreds digit of a byte (42_index_memory.md R72). -/
def hundreds (b : Byte) : Byte := BitVec.ofNat 8 (b.toNat / 100)

/-- The tens digit of a byte (42_index_memory.md R72). -/
def tens (b : Byte) : Byte := BitVec.ofNat 8 (b.toNat / 10 % 10)

/-- The ones digit of a byte (42_index_memory.md R72). -/
def ones (b : Byte) : Byte := BitVec.ofNat 8 (b.toNat % 10)

end Machine
end Sys2Proof
end

