-- ==== Sys2Proof/Machine/Flags.lean ====
section
/-! DEFINITION. Every flag the spec computes, and the order in which flag and result are written (41_alu.md R55,
R56). -/

namespace Sys2Proof
namespace Machine

/-- A flag as the byte `VF` holds: 1 or 0. -/
def flagByte (b : Bool) : Byte := if b then 1 else 0

/-- `8XY4`: 1 if the exact sum exceeds 255 (41_alu.md R63). -/
def carryFlag (a b : Byte) : Byte := flagByte (decide (255 < a.toNat + b.toNat))

/-- `8XY5` and `8XY7`: 1 if there is no borrow, minuend at least subtrahend (41_alu.md R64, R66). -/
def noBorrowFlag (minuend subtrahend : Byte) : Byte := flagByte (decide (subtrahend.toNat ≤ minuend.toNat))

/-- `8XY6`: the bit shifted out to the right, bit 0 (41_alu.md R65). -/
def lowBitFlag (a : Byte) : Byte := flagByte (a.getLsbD 0)

/-- `8XYE`: the bit shifted out to the left, bit 7 (41_alu.md R67). -/
def highBitFlag (a : Byte) : Byte := flagByte (a.getLsbD 7)

/-- Write the flag to `VF`, then the result to `V[x]`: where `x` is 15 the result stays and the flag is lost
(41_alu.md R56). Both were computed from the values read before. -/
def writeFlagThenResult (x : Reg) (flag result : Byte) (s : State) : State := (s.setV Reg.vf flag).setV x result

end Machine
end Sys2Proof
end

