-- ==== Sys2Proof/Machine/Alu.lean ====
section
/-! DEFINITION. The meanings of 41_alu.md: register loads, arithmetic, logic, shifts and random. All values are
unsigned and all arithmetic is modulo 256 (R55). -/

namespace Sys2Proof
namespace Machine

/-- `LD Vx, byte` (41_alu.md R57). -/
def execLdByte (x : Reg) (nn : Byte) (s : State) : Host.Outcome State Fault Refusal := .next (s.setV x nn)

/-- `ADD Vx, byte` (41_alu.md R58): no flag. -/
def execAddByte (x : Reg) (nn : Byte) (s : State) : Host.Outcome State Fault Refusal :=
  .next (s.setV x (s.getV x + nn))

/-- `LD Vx, Vy` (41_alu.md R59). -/
def execLdReg (x y : Reg) (s : State) : Host.Outcome State Fault Refusal := .next (s.setV x (s.getV y))

/-- `OR Vx, Vy` (41_alu.md R60): `VF` is not reset (the spec's decision D6, log entry 10). -/
def execOrReg (x y : Reg) (s : State) : Host.Outcome State Fault Refusal :=
  .next (s.setV x (s.getV x ||| s.getV y))

/-- `AND Vx, Vy` (41_alu.md R61): `VF` is not reset (the spec's decision D6, log entry 10). -/
def execAndReg (x y : Reg) (s : State) : Host.Outcome State Fault Refusal :=
  .next (s.setV x (s.getV x &&& s.getV y))

/-- `XOR Vx, Vy` (41_alu.md R62): `VF` is not reset (the spec's decision D6, log entry 10). -/
def execXorReg (x y : Reg) (s : State) : Host.Outcome State Fault Refusal :=
  .next (s.setV x (s.getV x ^^^ s.getV y))

/-- `ADD Vx, Vy` (41_alu.md R63). -/
def execAddReg (x y : Reg) (s : State) : Host.Outcome State Fault Refusal :=
  .next (writeFlagThenResult x (carryFlag (s.getV x) (s.getV y)) (s.getV x + s.getV y) s)

/-- `SUB Vx, Vy` (41_alu.md R64): `V[x]` is the minuend. -/
def execSubReg (x y : Reg) (s : State) : Host.Outcome State Fault Refusal :=
  .next (writeFlagThenResult x (noBorrowFlag (s.getV x) (s.getV y)) (s.getV x - s.getV y) s)

/-- `SHR Vx {, Vy}` (41_alu.md R65): `V[x]` is shifted in place and `V[y]` is not read (the spec's decision D5,
log entry 10). -/
def execShr (x _y : Reg) (s : State) : Host.Outcome State Fault Refusal :=
  .next (writeFlagThenResult x (lowBitFlag (s.getV x)) (s.getV x >>> 1) s)

/-- `SUBN Vx, Vy` (41_alu.md R66): `V[y]` is the minuend. -/
def execSubn (x y : Reg) (s : State) : Host.Outcome State Fault Refusal :=
  .next (writeFlagThenResult x (noBorrowFlag (s.getV y) (s.getV x)) (s.getV y - s.getV x) s)

/-- `SHL Vx {, Vy}` (41_alu.md R67): `V[x]` is shifted in place and `V[y]` is not read (the spec's decision D5,
log entry 10). -/
def execShl (x _y : Reg) (s : State) : Host.Outcome State Fault Refusal :=
  .next (writeFlagThenResult x (highBitFlag (s.getV x)) (s.getV x <<< 1) s)

/-- `RND Vx, byte` (41_alu.md R68), with the random byte supplied with the step. -/
def execRnd (x : Reg) (nn : Byte) (s : State) : Host.Outcome State Fault Refusal :=
  .next (s.setV x (s.port.rand &&& nn))

end Machine
end Sys2Proof
end

