-- ==== Sys2Proof/Machine/ControlFlow.lean ====
section
/-! DEFINITION. The meanings of 40_control_flow.md: return, jumps, call and skips. Each runs after the fetch, so
`pc` already holds the instruction's address plus 2 (R45). -/

namespace Sys2Proof
namespace Machine

/-- `RET` (40_control_flow.md R46). -/
def execRet (s : State) : Host.Outcome State Fault Refusal := .next (returnFromCall s)

/-- `JP addr` (40_control_flow.md R47). -/
def execJp (nnn : Addr12) (s : State) : Host.Outcome State Fault Refusal := .next (s.setPc (addrOf nnn))

/-- `CALL addr` (40_control_flow.md R48). -/
def execCall (nnn : Addr12) (s : State) : Host.Outcome State Fault Refusal := .next (callTo (addrOf nnn) s)

/-- `SE Vx, byte` (40_control_flow.md R49). -/
def execSeByte (x : Reg) (nn : Byte) (s : State) : Host.Outcome State Fault Refusal :=
  .next (skipIf (s.getV x == nn) s)

/-- `SNE Vx, byte` (40_control_flow.md R50). -/
def execSneByte (x : Reg) (nn : Byte) (s : State) : Host.Outcome State Fault Refusal :=
  .next (skipIf (s.getV x != nn) s)

/-- `SE Vx, Vy` (40_control_flow.md R51). -/
def execSeReg (x y : Reg) (s : State) : Host.Outcome State Fault Refusal :=
  .next (skipIf (s.getV x == s.getV y) s)

/-- `SNE Vx, Vy` (40_control_flow.md R52). -/
def execSneReg (x y : Reg) (s : State) : Host.Outcome State Fault Refusal :=
  .next (skipIf (s.getV x != s.getV y) s)

/-- `JP V0, addr` (40_control_flow.md R53): at most 0x10FE, so no 16-bit wrap. -/
def execJpV0 (nnn : Addr12) (s : State) : Host.Outcome State Fault Refusal :=
  .next (s.setPc (addrOf nnn + wordOfByte (s.getV Reg.v0)))

end Machine
end Sys2Proof
end

