-- ==== Sys2Proof/Machine/Framebuffer.lean ====
section
/-! DEFINITION. The framebuffer controller and the meanings of 43_display.md: clear and draw. -/

namespace Sys2Proof
namespace Machine

/-- Pixel `(px, py)`, set or not (10_state.md R15, 43_display.md R75). -/
def Display.pixel (d : Display) (px py : Nat) : Bool := (d[py]?.getD 0).getLsbD px

/-- The display with pixel `(px, py)` inverted (43_display.md R77). -/
def Display.toggle (d : Display) (px py : Nat) : Display :=
  d.setIfInBounds py ((d[py]?.getD 0) ^^^ BitVec.twoPow 64 px)

/-- The clear display: all 2048 pixels 0 (43_display.md R76). -/
def Display.clear : Display := Vector.replicate 32 0

/-- Whether a pixel position lies in the buffer: a sprite is clipped at its edges (43_display.md R77). -/
def onScreen (px py : Nat) : Bool := decide (px < Config.width) && decide (py < Config.height)

/-- A display being drawn on, and whether a pixel went from set to unset so far. -/
abbrev Blit := Display × Bool

/-- One bit `c` of a sprite row drawn at column `x0 + c` of row `py` (43_display.md R77). -/
def blitBit (row : Byte) (x0 py c : Nat) (b : Blit) : Blit :=
  if row.getLsbD (7 - c) && onScreen (x0 + c) py then
    (b.1.toggle (x0 + c) py, b.2 || b.1.pixel (x0 + c) py)
  else b

/-- The first `n` bits of a sprite row, leftmost first (43_display.md R77). -/
def blitBits (row : Byte) (x0 py : Nat) : Nat → Blit → Blit
  | 0, b => b
  | c + 1, b => blitBit row x0 py c (blitBits row x0 py c b)

/-- The first `n` rows of the sprite at `I`, top first (43_display.md R77). -/
def blitRows (s : State) (x0 y0 : Nat) : Nat → Blit → Blit
  | 0, b => b
  | r + 1, b => blitBits (s.memRead (indexAddr s r)) x0 (y0 + r) 8 (blitRows s x0 y0 r b)

/-- The sprite of `DXYN` drawn: the start coordinates wrap, the sprite is clipped (43_display.md R77). -/
def blitSprite (x y : Reg) (n : Nibble) (s : State) : Blit :=
  blitRows s ((s.getV x).toNat % Config.width) ((s.getV y).toNat % Config.height) n.toNat (s.disp, false)

/-- `CLS` (43_display.md R76). -/
def execCls (s : State) : Host.Outcome State Fault Refusal := .next (s.setDisp Display.clear)

/-- `DRW Vx, Vy, nibble` (43_display.md R77): `VF` is written last, from the whole sprite. -/
def execDrw (x y : Reg) (n : Nibble) (s : State) : Host.Outcome State Fault Refusal :=
  .next ((s.setDisp (blitSprite x y n s).1).setV Reg.vf (flagByte (blitSprite x y n s).2))

end Machine
end Sys2Proof
end

