-- ==== Sys2Proof/Machine/Index.lean ====
section
/-! DEFINITION. The meanings of 42_index_memory.md: the index register and memory transfers. `I` is never changed by
a transfer (the spec's decision D7, log entry 10), and every address is reduced at the access. -/

namespace Sys2Proof
namespace Machine

/-- `LD I, addr` (42_index_memory.md R69). -/
def execLdI (nnn : Addr12) (s : State) : Host.Outcome State Fault Refusal := .next (s.setI (addrOf nnn))

/-- `ADD I, Vx` (42_index_memory.md R70): modulo 2^16, no flag. -/
def execAddI (x : Reg) (s : State) : Host.Outcome State Fault Refusal :=
  .next (s.setI (s.i + wordOfByte (s.getV x)))

/-- `LD F, Vx` (42_index_memory.md R71): the formula holds for every `V[x]` (the spec's decision D10, log entry 10). -/
def execLdF (x : Reg) (s : State) : Host.Outcome State Fault Refusal :=
  .next (s.setI (wordOfByte (s.getV x) * 5))

/-- The three decimal digits of a byte stored at `I`, `I + 1` and `I + 2` (42_index_memory.md R72). -/
def storeDigits (b : Byte) (s : State) : State :=
  ((s.memWrite (indexAddr s 0) (hundreds b)).memWrite (indexAddr s 1) (tens b)).memWrite (indexAddr s 2) (ones b)

/-- `LD B, Vx` (42_index_memory.md R72). -/
def execLdB (x : Reg) (s : State) : Host.Outcome State Fault Refusal := .next (storeDigits (s.getV x) s)

/-- The first `n` registers stored at rising addresses from `I`, the lowest first (42_index_memory.md R73). -/
def storeFirst : Nat → State → State
  | 0, s => s
  | k + 1, s => (storeFirst k s).memWrite (indexAddr s k) (s.getV (Fin.ofNat 16 k))

/-- `LD [I], Vx` (42_index_memory.md R73). -/
def execStoreRegs (x : Reg) (s : State) : Host.Outcome State Fault Refusal := .next (storeFirst (x.val + 1) s)

/-- The first `n` registers loaded from rising addresses from `I`, the lowest first (42_index_memory.md R74). -/
def loadFirst : Nat → State → State
  | 0, s => s
  | k + 1, s => (loadFirst k s).setV (Fin.ofNat 16 k) (s.memRead (indexAddr s k))

/-- `LD Vx, [I]` (42_index_memory.md R74). -/
def execLoadRegs (x : Reg) (s : State) : Host.Outcome State Fault Refusal := .next (loadFirst (x.val + 1) s)

end Machine
end Sys2Proof
end

