-- ==== Sys2Proof/Machine/KeysTimers.lean ====
section
/-! DEFINITION. The meanings of 44_keys_timers.md: keypad and timer instructions. -/

namespace Sys2Proof
namespace Machine

/-- `SKP Vx` (44_keys_timers.md R78). -/
def execSkp (x : Reg) (s : State) : Host.Outcome State Fault Refusal := .next (skipIf (keyDown s (s.getV x)) s)

/-- `SKNP Vx` (44_keys_timers.md R79). -/
def execSknp (x : Reg) (s : State) : Host.Outcome State Fault Refusal := .next (skipIf (!keyDown s (s.getV x)) s)

/-- `LD Vx, DT` (44_keys_timers.md R80). -/
def execLdVxDt (x : Reg) (s : State) : Host.Outcome State Fault Refusal := .next (s.setV x s.dt)

/-- Take the least pressed key into `V[x]`, or, with no key pressed, rewind `pc` and report `AwaitingKey`
(44_keys_timers.md R81). -/
def takeKey (x : Reg) (s : State) : State :=
  match leastKey s.key with
  | some k => s.setV x (byteOfKey k)
  | none => (rewind s).setStepStatus .awaitingKey

/-- `LD Vx, K` (44_keys_timers.md R81). -/
def execLdVxK (x : Reg) (s : State) : Host.Outcome State Fault Refusal := .next (takeKey x s)

/-- `LD DT, Vx` (44_keys_timers.md R82). -/
def execLdDtVx (x : Reg) (s : State) : Host.Outcome State Fault Refusal := .next (s.setDt (s.getV x))

/-- `LD ST, Vx` (44_keys_timers.md R83). -/
def execLdStVx (x : Reg) (s : State) : Host.Outcome State Fault Refusal := .next (s.setSt (s.getV x))

end Machine
end Sys2Proof
end

