-- ==== Sys2Proof/WellFormed.lean ====
section
/-! DEFINITION. Well-formedness of what is not well formed by its type alone. An `Instr` needs no check: its
operands have exactly the widths of 30_encoding.md R34 and R35 (registers 0 to 15, `N`, `NN`, `NNN` of 4, 8
and 12 bits), and the spec admits every value of them. A decoded record holds overlapping fields, and a
program image has a size limit: those are checked here. -/

namespace Sys2Proof

/-- The fields of a record sit at the bits 30_encoding.md R34 gives them. -/
def Record.wellFormed (r : Record) : Bool :=
  r.cls == r.opcode.extractLsb' 12 4
    && r.x == (r.opcode.extractLsb' 8 4).toFin
    && r.y == (r.opcode.extractLsb' 4 4).toFin
    && r.n == r.opcode.extractLsb' 0 4
    && r.nn == r.opcode.extractLsb' 0 8
    && r.nnn == r.opcode.extractLsb' 0 12

/-- A program image fits in memory from the entry point on (70_reset_and_hazards.md R100). -/
def imageFits (image : List Byte) : Bool := image.length ≤ Config.maxImage

/-- A host command is well formed if its image, where it has one, fits. -/
def Command.wellFormed : Command → Bool
  | .reset => true
  | .load image => imageFits image
  | .setKeys _ => true
  | .step _ => true
  | .tick => true

end Sys2Proof
end

