-- ==== Sys2Proof/Machine/Commands.lean ====
section
/-! DEFINITION. The block's interface (00_scope.md R6, R7): the meaning of an unrecognized opcode, the host's
commands, each a total function of the state, the frame protocol (60_exceptions.md R91), and the outputs. -/

namespace Sys2Proof
namespace Machine

/-! ### One step (30_encoding.md R36) -/

/-- An unrecognized opcode is a no-op: nothing but the advance of the fetch (30_encoding.md R40). -/
def execUnrecognized (_why : Unrecognized) (s : State) : Host.Outcome State Fault Refusal := .next s

/-- Execute what the opcode was decoded to. -/
def execDecoded (d : Decoded) (s : State) : Host.Outcome State Fault Refusal :=
  match d with
  | .instr i => exec i s
  | .unrecognized why => execUnrecognized why s

/-- Fetch, advance `pc`, decode and execute one instruction, with the random byte `r` (30_encoding.md R36). -/
def stepOnce (r : Byte) (s : State) : Host.Outcome State Fault Refusal :=
  execDecoded (decode (fetchOpcode s)) (beginStep r s)

/-- The command `step(r)`. After `LoadFailure` "no step may follow" (70_reset_and_hazards.md R100), so the model
stops there by name: DESIGN CHOICE, safe (log entry 4). -/
def cmdStep (r : Byte) (s : State) : Host.Outcome State Fault Refusal :=
  if s.port.loadStatus = .loadFailure then .fault .stepAfterLoadFailure else stepOnce r s

/-! ### The other commands -/

/-- The command `reset` (70_reset_and_hazards.md R99). The counter of free random bytes and the host's own pending
commands are no part of the machine and stay (log entries 1, 3). -/
def cmdReset (s : State) : State :=
  State.reset.setPort { Port.reset with draws := s.port.draws, pending := s.port.pending }

/-- The command `load(image)` (70_reset_and_hazards.md R100): all of the image or nothing. -/
def cmdLoad (image : List Byte) (s : State) : State :=
  if imageFits image then
    ({ s with mem := s.mem.writeBytes Config.entry image }).setLoadStatus .loaded
  else s.setLoadStatus .loadFailure

/-- The command `set_keys(k)` (60_exceptions.md R92). -/
def cmdSetKeys (k : Keys) (s : State) : State := s.setKey k

/-- A timer one tick later: decremented, floored at 0 (60_exceptions.md R89). -/
def countdown (t : Byte) : Byte := if t = 0 then 0 else t - 1

/-- The command `tick` (60_exceptions.md R89): both timers independently. -/
def cmdTick (s : State) : State := (s.setDt (countdown s.dt)).setSt (countdown s.st)

/-- Apply one host command (00_scope.md R6). -/
def applyCommand (c : Command) (s : State) : Host.Outcome State Fault Refusal :=
  match c with
  | .reset => .next (cmdReset s)
  | .load image => .next (cmdLoad image s)
  | .setKeys k => .next (cmdSetKeys k s)
  | .step r => cmdStep r s
  | .tick => .next (cmdTick s)

/-- Apply host commands in order, stopping at the first fault: "a run is a finite sequence of host commands"
(60_exceptions.md R94). -/
def runCommands : List Command → State → Host.Outcome State Fault Refusal
  | [], s => .next s
  | c :: cs, s =>
    match applyCommand c s with
    | .next t => runCommands cs t
    | .fault f => .fault f
    | .refused r => .refused r

/-! ### The next thing that happens (log entry 3) -/

/-- The host's next command: the first pending one; with none pending, a `step` with a free random byte. DESIGN
CHOICE, unsafe for claims about runs whose state lists no command (log entry 3). -/
def nextCommand (s : State) : Command :=
  match s.port.pending with
  | [] => .step (Config.randByte s.port.draws)
  | c :: _ => c

/-- The state once the host's next command has been taken: it is no longer pending, or one more free random byte
has been drawn (log entries 1, 3). -/
def takeCommand (s : State) : State :=
  match s.port.pending with
  | [] => s.countDraw
  | _ :: cs => s.setPending cs

/-! ### Frames (60_exceptions.md R91) -/

/-- The commands of one frame, in order: sample the keys, `STEPS_PER_FRAME` steps each with a random byte of its
own, one tick. `present` reads only and is no command (60_exceptions.md R98). -/
def frameCommands (clockRate : Nat) (keys : Keys) (rands : Vector Byte (Config.stepsPerFrame clockRate)) : List Command :=
  .setKeys keys :: (rands.toList.map .step ++ [.tick])

/-- One frame run (60_exceptions.md R91). -/
def runFrame (clockRate : Nat) (keys : Keys) (rands : Vector Byte (Config.stepsPerFrame clockRate)) (s : State) :
    Host.Outcome State Fault Refusal :=
  runCommands (frameCommands clockRate keys rands) s

/-- The launch of a program: `reset`, then one `load` (70_reset_and_hazards.md R101). -/
def launchCommands (image : List Byte) : List Command := [.reset, .load image]

/-! ### Outputs (00_scope.md R7) -/

/-- Display index `p` is pixel `(p mod 64, p div 64)`: row-major, `y*64 + x` (10_state.md R15). -/
def State.dispAt (s : State) (p : Nat) : Bool := s.disp.pixel (p % Config.width) (p / Config.width)

/-- The output `display`: the 2048 pixels in row-major order (60_exceptions.md R93). -/
def State.display (s : State) : List Bool := (List.range (Config.width * Config.height)).map s.dispAt

/-- The output `sound_active` (60_exceptions.md R90). -/
def State.soundActive (s : State) : Bool := s.st != 0

/-- The optional output `trace` (60_exceptions.md R95): the address the next step fetches from, and the decoded
record it executes. Reading it changes no state (log entry 14). -/
def State.trace (s : State) : Word × Record := (s.pc, decodeRecord (fetchOpcode s))

end Machine
end Sys2Proof
end

