-- ==== Sys2Proof/Machine/Step.lean ====
section
/-! DEFINITION. The step of the machine: the host's next command is taken and applied (00_scope.md R5, R6). -/

namespace Sys2Proof
namespace Machine

/-- One step of the model: the host's next command, applied. With no command pending this is the spec's `step(r)`
with a free random byte, one instruction (30_encoding.md R36; log entries 1, 3). -/
def step (s : State) : Host.Outcome State Fault Refusal := applyCommand (nextCommand s) (takeCommand s)

/-- The state with the instruction whose bits are `w` stored where the next step fetches, and nothing before it:
no command pending, no failed load (log entry 15). -/
def State.withFetchWord (s : State) (nbits w : Nat) : State := storeOpcode (tableWord nbits w) (readyToStep s)

end Machine
end Sys2Proof
end

