-- ==== Sys2Proof/Safety.lean ====
section
/-! DEFINITION. The terms claims are stated in: the pieces of state and what it means for a step to change only
some of them, the invariant of the machine, and what counts as a run without a stack fault. -/

namespace Sys2Proof
namespace Machine

/-- A piece of state as a reader of the machine observes it: every field of `State` (10_state.md R18) and every
field of its ports, the wide ones piece by piece. -/
inductive Field where
  /-- `V[r]`. -/
  | reg (r : Reg)
  /-- `I`. -/
  | index
  /-- The program counter. -/
  | pc
  /-- `stack[k]`. -/
  | stackEntry (k : Fin 16)
  /-- The stack depth. -/
  | sp
  /-- `DT`. -/
  | dt
  /-- `ST`. -/
  | st
  /-- The keypad. -/
  | key
  /-- The pixel at column `px`, row `py`. -/
  | pixel (px : Fin 64) (py : Fin 32)
  /-- The byte that address `a` reads, reduced as any access (20_memory.md R21). -/
  | byte (a : Nat)
  /-- `stack_overflow`. -/
  | stackOverflow
  /-- `stack_underflow`. -/
  | stackUnderflow
  /-- The random byte of the step. -/
  | rand
  /-- `step_status`. -/
  | stepStatus
  /-- `load_status`. -/
  | loadStatus
  /-- The count of free random bytes. -/
  | draws
  /-- The host's pending commands. -/
  | pending
  deriving DecidableEq, Repr

/-- The piece of state is the same in both states. -/
def Field.same (s t : State) : Field → Prop
  | .reg r => t.getV r = s.getV r
  | .index => t.i = s.i
  | .pc => t.pc = s.pc
  | .stackEntry k => t.stack[k.val] = s.stack[k.val]
  | .sp => t.sp = s.sp
  | .dt => t.dt = s.dt
  | .st => t.st = s.st
  | .key => t.key = s.key
  | .pixel px py => t.disp.pixel px.val py.val = s.disp.pixel px.val py.val
  | .byte a => t.memRead a = s.memRead a
  | .stackOverflow => t.stackOverflow = s.stackOverflow
  | .stackUnderflow => t.stackUnderflow = s.stackUnderflow
  | .rand => t.port.rand = s.port.rand
  | .stepStatus => t.port.stepStatus = s.port.stepStatus
  | .loadStatus => t.port.loadStatus = s.port.loadStatus
  | .draws => t.port.draws = s.port.draws
  | .pending => t.port.pending = s.port.pending

/-- From `s` to `t` only the pieces of state in `changed` may differ. -/
def ChangesOnly (changed : Field → Prop) (s t : State) : Prop := ∀ f, ¬ changed f → Field.same s t f

/-- The invariant of the machine: memory keeps its canonical form. (The other bounds the spec states, the stack
depth of 10_state.md R12 and the register widths, hold by the fields' types.) -/
def MemCanonical (s : State) : Prop := s.mem.wf = true

/-- No stack fault has been recorded: the premise 93_implementation_defined.md I6 and I7 tell claims to take. -/
def noStackFault (s : State) : Bool := !s.stackOverflow && !s.stackUnderflow

/-- Every image in the commands fits (60_exceptions.md R98: no `step` follows a failed load). -/
def imagesFit (cs : List Command) : Bool := cs.all Command.wellFormed

/-- What an instruction may write, collected from 10_state.md R8 to R17 and 20_memory.md R29: its destinations, `VF`
for the six that write it as a flag, the bytes it stores to, and nothing else. -/
def mayWrite (i : Instr) (s : State) (f : Field) : Prop :=
  match i with
  | .cls => ∃ px py, f = .pixel px py
  | .ret => f = .pc ∨ f = .sp ∨ f = .stackUnderflow
  | .jp _ => f = .pc
  | .call _ => f = .pc ∨ f = .sp ∨ f = .stackOverflow ∨ ∃ k : Fin 16, k.val = s.sp.val ∧ f = .stackEntry k
  | .seByte _ _ => f = .pc
  | .sneByte _ _ => f = .pc
  | .seReg _ _ => f = .pc
  | .ldByte x _ => f = .reg x
  | .addByte x _ => f = .reg x
  | .ldReg x _ => f = .reg x
  | .orReg x _ => f = .reg x
  | .andReg x _ => f = .reg x
  | .xorReg x _ => f = .reg x
  | .addReg x _ => f = .reg x ∨ f = .reg Reg.vf
  | .subReg x _ => f = .reg x ∨ f = .reg Reg.vf
  | .shr x _ => f = .reg x ∨ f = .reg Reg.vf
  | .subn x _ => f = .reg x ∨ f = .reg Reg.vf
  | .shl x _ => f = .reg x ∨ f = .reg Reg.vf
  | .sneReg _ _ => f = .pc
  | .ldI _ => f = .index
  | .jpV0 _ => f = .pc
  | .rnd x _ => f = .reg x
  | .drw _ _ _ => f = .reg Reg.vf ∨ ∃ px py, f = .pixel px py
  | .skp _ => f = .pc
  | .sknp _ => f = .pc
  | .ldVxDt x => f = .reg x
  | .ldVxK x => f = .reg x ∨ f = .pc ∨ f = .stepStatus
  | .ldDtVx _ => f = .dt
  | .ldStVx _ => f = .st
  | .addI _ => f = .index
  | .ldF _ => f = .index
  | .ldB _ => ∃ a k, f = .byte a ∧ k < 3 ∧ phys a = phys (indexAddr s k)
  | .storeRegs x => ∃ a k, f = .byte a ∧ k ≤ x.val ∧ phys a = phys (indexAddr s k)
  | .loadRegs x => ∃ r, f = .reg r ∧ r ≤ x

/-- The registers an instruction's `X` and `Y` fields name as operands or destinations (30_encoding.md R35), with
the ranges `V[0]..V[x]` of 42_index_memory.md R73 and R74, and `V[0]` for `JP V0, addr`. `Y` of the shifts is
not read (41_alu.md R65, R67). -/
def namesReg (r : Reg) : Instr → Prop
  | .cls => False
  | .ret => False
  | .jp _ => False
  | .call _ => False
  | .seByte x _ => r = x
  | .sneByte x _ => r = x
  | .seReg x y => r = x ∨ r = y
  | .ldByte x _ => r = x
  | .addByte x _ => r = x
  | .ldReg x y => r = x ∨ r = y
  | .orReg x y => r = x ∨ r = y
  | .andReg x y => r = x ∨ r = y
  | .xorReg x y => r = x ∨ r = y
  | .addReg x y => r = x ∨ r = y
  | .subReg x y => r = x ∨ r = y
  | .shr x _ => r = x
  | .subn x y => r = x ∨ r = y
  | .shl x _ => r = x
  | .sneReg x y => r = x ∨ r = y
  | .ldI _ => False
  | .jpV0 _ => r = Reg.v0
  | .rnd x _ => r = x
  | .drw x y _ => r = x ∨ r = y
  | .skp x => r = x
  | .sknp x => r = x
  | .ldVxDt x => r = x
  | .ldVxK x => r = x
  | .ldDtVx x => r = x
  | .ldStVx x => r = x
  | .addI x => r = x
  | .ldF x => r = x
  | .ldB x => r = x
  | .storeRegs x => r ≤ x
  | .loadRegs x => r ≤ x

/-- The instructions that write `VF` as a flag, exactly those 10_state.md R9 lists. -/
def writesFlag (i : Instr) : Prop :=
  (∃ x y, i = .addReg x y) ∨ (∃ x y, i = .subReg x y) ∨ (∃ x y, i = .shr x y) ∨ (∃ x y, i = .subn x y)
    ∨ (∃ x y, i = .shl x y) ∨ (∃ x y n, i = .drw x y n)

/-- The sprite of `DXYN`, as a picture on the display rather than as a loop (43_display.md R77): the pixel at column
`px`, row `py` is covered by a set sprite bit. The start wraps, the sprite does not. -/
def spriteBit (s : State) (x y : Reg) (n : Nibble) (px py : Nat) : Bool :=
  decide ((s.getV x).toNat % 64 ≤ px) && decide (px < (s.getV x).toNat % 64 + 8)
    && decide ((s.getV y).toNat % 32 ≤ py) && decide (py < (s.getV y).toNat % 32 + n.toNat)
    && (s.memRead (s.i.toNat + (py - (s.getV y).toNat % 32))).getLsbD (7 - (px - (s.getV x).toNat % 64))

end Machine
end Sys2Proof
end

