-- ==== Sys2Proof/Certificates/Slice0/Obligations.lean ====
section
/-! DEFINITION. The statements for the provers, from the numbered rules of spec/. Each docstring cites the rule it
formalises; where a clause rests on a decision or inference the spec marks as its own, it names it. A statement
about an instruction gives its completion (`exec` answers a next state), its result and its frame. -/

open Sys2Proof Sys2Proof.Machine

/-! ### Encoding and decoding (30_encoding.md) -/

/-- Decoding the opcode of any instruction gives it back, with every operand at every value (30_encoding.md R34, R39).
The opcode numbers are the spec's from general knowledge (log entry 8). -/
def Obligations.DecodeOfEncode : Prop := ∀ i : Instr, decode (encode i) = .instr i

/-- An opcode that decodes to an instruction is that instruction's opcode but for the nibbles its pattern does not
examine (30_encoding.md R38, R39; the spec's decision D8; opcode numbers: log entry 8). That the opcode the encoder
gives has 0 in those nibbles is the model's choice (log entry 12). -/
def Obligations.EncodeOfDecode : Prop :=
  ∀ (op : Word) (i : Instr), decode op = .instr i → encode i = op &&& usedBits i

/-- Every field of the decoded record is the field of the opcode at the bits 30_encoding.md R34 gives, and the record
is well formed (R37). -/
def Obligations.RecordFieldsSitAtTheirBits : Prop :=
  ∀ op : Word,
    (decodeRecord op).opcode = op ∧ (decodeRecord op).cls.toNat = op.toNat / 4096
      ∧ (decodeRecord op).x.val = op.toNat / 256 % 16 ∧ (decodeRecord op).y.val = op.toNat / 16 % 16
      ∧ (decodeRecord op).n.toNat = op.toNat % 16 ∧ (decodeRecord op).nn.toNat = op.toNat % 256
      ∧ (decodeRecord op).nnn.toNat = op.toNat % 4096 ∧ (decodeRecord op).wellFormed = true

/-- The dispatch of 30_encoding.md R38 and the opcode map of R39 agree on all 65536 opcodes: an opcode that is an
instruction fits the row of that instruction and no other, and an unrecognized one fits no row (the unexamined nibbles
are the spec's decision D8; opcode numbers: log entry 8). -/
def Obligations.EveryOpcodeFitsItsOwnRowOnly : Prop :=
  ∀ op : Word,
    opcodeTable.filter (fun row => row.fits op)
      = match decode op with
        | .instr i => [tableRow i]
        | .unrecognized _ => []

/-- The unrecognized opcodes are exactly those 30_encoding.md R40 lists (the unexamined nibbles are the spec's decision
D8; opcode numbers: log entry 8). -/
def Obligations.UnrecognizedOpcodesAreExactlyTheListed : Prop :=
  ∀ op : Word,
    (decode op).toInstr? = none ↔
      (op.toNat / 4096 = 0x0 ∧ op.toNat % 256 ≠ 0xE0 ∧ op.toNat % 256 ≠ 0xEE)
        ∨ (op.toNat / 4096 = 0x8 ∧ op.toNat % 16 ∈ [0x8, 0x9, 0xA, 0xB, 0xC, 0xD, 0xF])
        ∨ (op.toNat / 4096 = 0xE ∧ op.toNat % 256 ≠ 0x9E ∧ op.toNat % 256 ≠ 0xA1)
        ∨ (op.toNat / 4096 = 0xF
            ∧ op.toNat % 256 ∉ [0x07, 0x0A, 0x15, 0x18, 0x1E, 0x29, 0x33, 0x55, 0x65])

/-- Opcodes written out from the patterns of 30_encoding.md R39 decode to the instruction they stand for, one or more
of each family, as bytes in memory order (20_memory.md R24; the unexamined nibbles are the spec's decision D8; opcode
numbers: log entry 8). -/
def Obligations.SampleWordsDecode : Prop :=
  decodeBytes 0x00 0xE0 = .instr .cls ∧ decodeBytes 0x0F 0xEE = .instr .ret
    ∧ decodeBytes 0x12 0x00 = .instr (.jp 0x200) ∧ decodeBytes 0x9A 0xBF = .instr (.sneReg 0xA 0xB)
    ∧ decodeBytes 0x6A 0x02 = .instr (.ldByte 0xA 0x02) ∧ decodeBytes 0x8A 0xBE = .instr (.shl 0xA 0xB)
    ∧ decodeBytes 0xF3 0x55 = .instr (.storeRegs 0x3) ∧ decodeBytes 0xD1 0x25 = .instr (.drw 0x1 0x2 0x5)
    ∧ decodeBytes 0xE1 0xA1 = .instr (.sknp 0x1) ∧ decodeBytes 0xF3 0x0A = .instr (.ldVxK 0x3)
    ∧ decodeBytes 0x01 0x23 = .unrecognized .system

/-! ### The step (30_encoding.md R36) -/

/-- When the two bytes at `pc` decode to an instruction, the step is that instruction's execution in the state whose
`pc` has advanced by 2 modulo 2^16, whose random byte is the one supplied, and whose status is `Done`
(30_encoding.md R36; the wrap is the spec's decision D2). The host's command list and the free random byte are the
model's choice (log entries 1, 3). Every instruction is well formed by its type. -/
def Obligations.StepRunsTheDecodedInstruction : Prop :=
  ∀ (s : State) (i : Instr), decode (fetchOpcode s) = .instr i → s.port.loadStatus ≠ .loadFailure →
    (∀ r rest, s.port.pending = .step r :: rest → step s = exec i (beginStep r (s.setPending rest)))
      ∧ (s.port.pending = [] → step s = exec i (beginStep (Config.randByte s.port.draws) s.countDraw))
      ∧ ∀ r, (beginStep r s).pc = s.pc + 2 ∧ (beginStep r s).port.rand = r
          ∧ (beginStep r s).port.stepStatus = .done
          ∧ ChangesOnly (fun f => f = .pc ∨ f = .rand ∨ f = .stepStatus) s (beginStep r s)

/-- The opcode fetched is big-endian, both addresses reduced on their own, with no alignment (20_memory.md R21, R24,
R25; reduction is the spec's decision D1, alignment D2). -/
def Obligations.FetchIsBigEndianAndWraps : Prop :=
  ∀ s : State,
    (fetchOpcode s).toNat = 256 * (s.memRead s.pc.toNat).toNat + (s.memRead (s.pc.toNat + 1)).toNat
      ∧ (s.pc.toNat % 4096 = 0xFFF → s.memRead (s.pc.toNat + 1) = s.memRead 0)

/-- The step of an unrecognized opcode changes nothing but the advance of `pc`, and returns `Done`
(30_encoding.md R40; the wrap of `pc` is the spec's decision D2). The random byte supplied and the status are held in
the model's ports, which are no state of the spec's machine (log entries 1, 2). -/
def Obligations.UnrecognizedOpcodeIsANoOp : Prop :=
  ∀ (s : State) (r : Byte) (why : Unrecognized), decode (fetchOpcode s) = .unrecognized why →
    s.port.loadStatus ≠ .loadFailure →
    ∃ t, applyCommand (.step r) s = .next t ∧ t.pc = s.pc + 2 ∧ t.port.stepStatus = .done
      ∧ ChangesOnly (fun f => f = .pc ∨ f = .stepStatus ∨ f = .rand) s t

/-- An opcode stored by `withFetchWord` is the one the next step fetches, wherever `pc` points, and the next thing
that happens is a step (20_memory.md R21, R24; the reduction of addresses is the spec's decision D1, writable low
memory D11; `withFetchWord` is the model's, log entry 15). -/
def Obligations.WithFetchWordIsFetchedNext : Prop :=
  ∀ (s : State) (w : Nat), MemCanonical s → w < 2 ^ 16 →
    (fetchOpcode (s.withFetchWord 16 w)).toNat = w
      ∧ (∃ r, nextCommand (s.withFetchWord 16 w) = .step r)
      ∧ ∃ r, step (s.withFetchWord 16 w)
          = execDecoded (decode (BitVec.ofNat 16 w)) (beginStep r (takeCommand (s.withFetchWord 16 w)))

/-! ### Memory, reset and load -/

/-- Two memories in canonical form that read alike at every address are the same data (the canonical form of
10_state.md R16's 4096 bytes; the model's representation). -/
def Obligations.EqualBytesMeanEqualMemory : Prop :=
  ∀ m n : Memory, m.wf = true → n.wf = true → (∀ a, a < 4096 → m.read a = n.read a) → m = n

/-- Every step, of an instruction or of any other host command, keeps memory in its canonical form, from every state
that has it (10_state.md R16, 20_memory.md R23; the canonical form is the model's representation, the reduction of
addresses the spec's decision D1). -/
def Obligations.StepKeepsCanonicalMemory : Prop := ∀ s t : State, MemCanonical s → step s = .next t → MemCanonical t

/-- What reset leaves (10_state.md R19, 70_reset_and_hazards.md R99): registers, timers, keypad, display, stack and
sticky bits zero, `pc` at the entry point, the font of 20_memory.md R27 at 0x000..0x04F and zero elsewhere, and the
invariant. The values but those of memory and `V` are the spec's decision D14; the font bytes are from general
knowledge (log entry 7). -/
def Obligations.ResetLeavesTheStatedValues : Prop :=
  MemCanonical State.reset
    ∧ (∀ r, State.reset.getV r = 0) ∧ State.reset.i = 0 ∧ State.reset.pc.toNat = 0x200
    ∧ (∀ k : Fin 16, State.reset.stack[k.val] = 0) ∧ State.reset.sp.val = 0
    ∧ State.reset.dt = 0 ∧ State.reset.st = 0 ∧ State.reset.key = 0
    ∧ (∀ px py, State.reset.disp.pixel px py = false)
    ∧ (∀ a, State.reset.memRead a = if h : a % 4096 < 80 then Config.font[a % 4096]'h else 0)
    ∧ State.reset.stackOverflow = false ∧ State.reset.stackUnderflow = false

/-- `reset` puts every piece of state at its reset value, whatever the state was (70_reset_and_hazards.md R99). The
spec gives the ports no reset value: that `reset` also puts `step_status` and `load_status` back to the model's reset
values is the model's choice (log entry 2), as is that of the random byte (log entry 1); and that the host's own
command list and the count of free random bytes stay, which are no part of the machine (log entries 1, 3). -/
def Obligations.ResetCommandConstructsTheMachine : Prop :=
  ∀ s : State, ∃ t, applyCommand .reset s = .next t
    ∧ ChangesOnly (fun f => f = .draws ∨ f = .pending) State.reset t
    ∧ t.port.draws = s.port.draws ∧ t.port.pending = s.port.pending

/-- `load(image)` writes an image of at most 3584 bytes at 0x200 and nothing else, and refuses a larger one with
nothing written (70_reset_and_hazards.md R100; that an empty image loads is the spec's decision D25). -/
def Obligations.LoadWritesTheImageOrNothing : Prop :=
  ∀ (s : State) (image : List Byte), MemCanonical s →
    ∃ t, applyCommand (.load image) s = .next t
      ∧ (image.length ≤ 3584 → t.port.loadStatus = .loaded
          ∧ (∀ k (h : k < image.length), t.memRead (0x200 + k) = image[k])
          ∧ ChangesOnly (fun f => f = .loadStatus
              ∨ ∃ a k, f = .byte a ∧ k < image.length ∧ a % 4096 = 0x200 + k) s t)
      ∧ (3584 < image.length → t.port.loadStatus = .loadFailure
          ∧ ChangesOnly (fun f => f = .loadStatus) s t)

/-- A `step` after `LoadFailure` stops by name and only that does: no other command and no instruction ever stops
the machine (70_reset_and_hazards.md R100, 60_exceptions.md R84; the fault is the model's choice, log entry 4). -/
def Obligations.OnlyAStepAfterLoadFailureStops : Prop :=
  ∀ s : State,
    (step s = .fault .stepAfterLoadFailure ↔
      s.port.loadStatus = .loadFailure ∧ ∃ r, nextCommand s = .step r)
    ∧ (step s ≠ .fault .stepAfterLoadFailure → ∃ t, step s = .next t)

/-! ### Timers, keypad, frames and outputs (60_exceptions.md) -/

/-- `tick` decrements each timer independently, floored at 0, and changes nothing else; every frame has exactly one,
after the frame's steps (60_exceptions.md R89). -/
def Obligations.TickCountsDownBothTimers : Prop :=
  (∀ s : State, ∃ t, applyCommand .tick s = .next t
    ∧ (0 < s.dt.toNat → t.dt.toNat = s.dt.toNat - 1) ∧ (s.dt.toNat = 0 → t.dt.toNat = 0)
    ∧ (0 < s.st.toNat → t.st.toNat = s.st.toNat - 1) ∧ (s.st.toNat = 0 → t.st.toNat = 0)
    ∧ ChangesOnly (fun f => f = .dt ∨ f = .st) s t)
  ∧ ∀ (clockRate : Nat) (keys : Keys) (rands : Vector Byte (Config.stepsPerFrame clockRate)),
      ∃ cs, frameCommands clockRate keys rands = cs ++ [.tick] ∧ .tick ∉ cs
        ∧ (cs.filter fun c => c ≠ .setKeys keys).length = Config.stepsPerFrame clockRate

/-- `set_keys(k)` writes the keypad, bit `i` for key `i`, and changes nothing else (60_exceptions.md R92). -/
def Obligations.SetKeysWritesTheKeypadOnly : Prop :=
  ∀ (s : State) (k : Keys), ∃ t, applyCommand (.setKeys k) s = .next t
    ∧ t.key = k ∧ ChangesOnly (fun f => f = .key) s t

/-- One frame samples the keys, runs `max(1, floor(CLOCK_RATE / 60))` steps under those keys, and ticks exactly once
after them (60_exceptions.md R91; the count of steps is 00_scope.md R4's, for every `CLOCK_RATE`, which the spec leaves
OPEN: decision D13, log entry 13). -/
def Obligations.FrameIsKeysThenStepsThenOneTick : Prop :=
  ∀ (clockRate : Nat) (keys : Keys) (rands : Vector Byte (Config.stepsPerFrame clockRate)) (s t : State),
    runFrame clockRate keys rands s = .next t →
    rands.toList.length = max 1 (clockRate / 60)
      ∧ t.key = keys
      ∧ ∃ u, runCommands (rands.toList.map .step) (s.setKey keys) = .next u
          ∧ u.key = keys ∧ t.dt.toNat = u.dt.toNat - 1 ∧ t.st.toNat = u.st.toNat - 1
          ∧ ChangesOnly (fun f => f = .dt ∨ f = .st) u t

/-- The machine the host runs is the machine of the host's commands: stepping a state that lists commands applies
exactly those commands, in order (60_exceptions.md R94; the command list is the model's choice, log entry 3). -/
def Obligations.PendingCommandsRunInOrder : Prop :=
  ∀ (cs : List Command) (s : State), s.port.pending = [] →
    Host.Core.run Sys2Proof.core cs.length (s.setPending cs) = runCommands cs s

/-- The core never stops by itself: any sequence of host commands in which every image fits runs to its end
(60_exceptions.md R84, R94). -/
def Obligations.CommandsWithFittingImagesNeverStop : Prop :=
  ∀ (cs : List Command) (s : State), imagesFit cs = true → s.port.loadStatus ≠ .loadFailure →
    ∃ t, runCommands cs s = .next t ∧ t.port.loadStatus ≠ .loadFailure

/-- The output `display` is the 2048 pixels in row-major order, and `sound_active` is 1 exactly while `ST` is not 0
(10_state.md R15, 60_exceptions.md R90, R93). -/
def Obligations.OutputsShowDisplayAndSound : Prop :=
  ∀ s : State, s.display.length = 2048
    ∧ (∀ px py, px < 64 → py < 32 → s.display[py * 64 + px]? = some (s.disp.pixel px py))
    ∧ (s.soundActive = true ↔ s.st.toNat ≠ 0)

/-! ### Control transfer (40_control_flow.md) -/

/-- `JP addr`: its opcode is `1NNN`, and it sets `pc` to the zero-extended address (40_control_flow.md R47). -/
def Obligations.JumpSetsThePc : Prop :=
  ∀ (nnn : Addr12) (s : State), decode (BitVec.ofNat 16 (0x1000 + nnn.toNat)) = .instr (.jp nnn)
    ∧ ∃ t, exec (.jp nnn) s = .next t ∧ t.pc.toNat = nnn.toNat ∧ ChangesOnly (fun f => f = .pc) s t

/-- `JP V0, addr`: the address plus `V[0]`, kept as it is (40_control_flow.md R53, the spec's decisions D1, D2). -/
def Obligations.JumpWithOffsetAddsVZero : Prop :=
  ∀ (nnn : Addr12) (s : State), ∃ t, exec (.jpV0 nnn) s = .next t
    ∧ t.pc.toNat = nnn.toNat + (s.getV 0).toNat ∧ ChangesOnly (fun f => f = .pc) s t

/-- `CALL addr`: pushes the advanced `pc` and jumps; with 16 entries in use it only sets `stack_overflow`
(40_control_flow.md R48, 10_state.md R12; the policy is the spec's decision D3). -/
def Obligations.CallPushesOrRecordsOverflow : Prop :=
  ∀ (nnn : Addr12) (s : State), ∃ t, exec (.call nnn) s = .next t
    ∧ (s.sp.val < 16 → t.pc.toNat = nnn.toNat ∧ t.sp.val = s.sp.val + 1
        ∧ (∀ k : Fin 16, t.stack[k.val] = if k.val = s.sp.val then s.pc else s.stack[k.val])
        ∧ ChangesOnly (fun f => f = .pc ∨ f = .sp ∨ ∃ k, f = .stackEntry k) s t)
    ∧ (s.sp.val = 16 → t.stackOverflow = true ∧ ChangesOnly (fun f => f = .stackOverflow) s t)

/-- `RET`: pops the top entry into `pc` and leaves the entry in place; on an empty stack it only sets
`stack_underflow` (40_control_flow.md R46; the policy is the spec's decision D4). -/
def Obligations.RetPopsOrRecordsUnderflow : Prop :=
  ∀ s : State, ∃ t, exec .ret s = .next t
    ∧ (∀ k : Fin 16, s.sp.val = k.val + 1 → t.pc = s.stack[k.val] ∧ t.sp.val = k.val
        ∧ ChangesOnly (fun f => f = .pc ∨ f = .sp) s t)
    ∧ (s.sp.val = 0 → t.stackUnderflow = true ∧ ChangesOnly (fun f => f = .stackUnderflow) s t)

/-- A call and then a return, with the stack and its depth left alone in between, restores `pc` to the instruction
after the call and the depth to what it was (95_test_vectors.md E6; 40_control_flow.md R46, R48). -/
def Obligations.CallThenReturnComesBack : Prop :=
  ∀ (nnn : Addr12) (s t u : State), s.sp.val < 16 → exec (.call nnn) s = .next t →
    u.stack = t.stack → u.sp = t.sp →
    ∃ w, exec .ret u = .next w ∧ w.pc = s.pc ∧ w.sp = s.sp

/-- The four comparing skips add a further 2 to `pc`, modulo 2^16, when their condition holds, and change nothing
else (40_control_flow.md R45, R49 to R52; the wrap is the spec's decision D2). -/
def Obligations.ComparingSkipsSkipOnTheirCondition : Prop :=
  ∀ (x y : Reg) (nn : Byte) (s : State),
    (∃ t, exec (.seByte x nn) s = .next t
      ∧ t.pc.toNat = (if (s.getV x).toNat = nn.toNat then (s.pc.toNat + 2) % 65536 else s.pc.toNat)
      ∧ ChangesOnly (fun f => f = .pc) s t)
    ∧ (∃ t, exec (.sneByte x nn) s = .next t
      ∧ t.pc.toNat = (if (s.getV x).toNat = nn.toNat then s.pc.toNat else (s.pc.toNat + 2) % 65536)
      ∧ ChangesOnly (fun f => f = .pc) s t)
    ∧ (∃ t, exec (.seReg x y) s = .next t
      ∧ t.pc.toNat = (if (s.getV x).toNat = (s.getV y).toNat then (s.pc.toNat + 2) % 65536 else s.pc.toNat)
      ∧ ChangesOnly (fun f => f = .pc) s t)
    ∧ (∃ t, exec (.sneReg x y) s = .next t
      ∧ t.pc.toNat = (if (s.getV x).toNat = (s.getV y).toNat then s.pc.toNat else (s.pc.toNat + 2) % 65536)
      ∧ ChangesOnly (fun f => f = .pc) s t)

/-! ### Loads, arithmetic, logic, shifts, random (41_alu.md) -/

/-- `LD Vx, byte`: its opcode is `6XNN`, and it loads the byte into `V[x]`, `VF` included (41_alu.md R57). -/
def Obligations.LoadImmediateWritesVx : Prop :=
  ∀ (x : Reg) (nn : Byte) (s : State),
    decode (BitVec.ofNat 16 (0x6000 + 256 * x.val + nn.toNat)) = .instr (.ldByte x nn)
    ∧ ∃ t, exec (.ldByte x nn) s = .next t ∧ t.getV x = nn ∧ ChangesOnly (fun f => f = .reg x) s t

/-- `ADD Vx, byte`: modulo 256, with no flag: `VF` is unchanged unless it is the destination (41_alu.md R58). -/
def Obligations.AddImmediateWrapsWithoutFlag : Prop :=
  ∀ (x : Reg) (nn : Byte) (s : State), ∃ t, exec (.addByte x nn) s = .next t
    ∧ (t.getV x).toNat = ((s.getV x).toNat + nn.toNat) % 256 ∧ ChangesOnly (fun f => f = .reg x) s t

/-- The copy and the bitwise `OR`, `AND`, `XOR`, bit by bit; `VF` is not reset (41_alu.md R59 to R62, the spec's
decision D6). -/
def Obligations.CopyAndLogicWriteVxOnly : Prop :=
  ∀ (x y : Reg) (s : State),
    (∃ t, exec (.ldReg x y) s = .next t ∧ t.getV x = s.getV y ∧ ChangesOnly (fun f => f = .reg x) s t)
    ∧ (∃ t, exec (.orReg x y) s = .next t
      ∧ (∀ b, (t.getV x).getLsbD b = ((s.getV x).getLsbD b || (s.getV y).getLsbD b))
      ∧ ChangesOnly (fun f => f = .reg x) s t)
    ∧ (∃ t, exec (.andReg x y) s = .next t
      ∧ (∀ b, (t.getV x).getLsbD b = ((s.getV x).getLsbD b && (s.getV y).getLsbD b))
      ∧ ChangesOnly (fun f => f = .reg x) s t)
    ∧ (∃ t, exec (.xorReg x y) s = .next t
      ∧ (∀ b, (t.getV x).getLsbD b = ((s.getV x).getLsbD b ^^ (s.getV y).getLsbD b))
      ∧ ChangesOnly (fun f => f = .reg x) s t)

/-- `ADD Vx, Vy`: the sum modulo 256, and `VF` 1 if the exact sum exceeds 255, else 0; where `x` is 15 the sum stays
in `VF` and the flag is lost; where `y` is 15 the old `VF` is added (41_alu.md R63, with the order of R56). -/
def Obligations.AddSetsCarry : Prop :=
  ∀ (x y : Reg) (s : State), ∃ t, exec (.addReg x y) s = .next t
    ∧ (t.getV x).toNat = ((s.getV x).toNat + (s.getV y).toNat) % 256
    ∧ (x ≠ 15 → t.getV 15 = if (s.getV x).toNat + (s.getV y).toNat > 255 then 1 else 0)
    ∧ ChangesOnly (fun f => f = .reg x ∨ f = .reg 15) s t

/-- `SUB Vx, Vy`: `V[x] - V[y]` modulo 256, and `VF` 1 when the minuend is at least the subtrahend, else 0; where
`x` is 15 the difference stays in `VF` (41_alu.md R64, with the order of R56). -/
def Obligations.SubSetsNoBorrow : Prop :=
  ∀ (x y : Reg) (s : State), ∃ t, exec (.subReg x y) s = .next t
    ∧ (t.getV x).toNat = ((s.getV x).toNat + 256 - (s.getV y).toNat) % 256
    ∧ (x ≠ 15 → t.getV 15 = if (s.getV x).toNat ≥ (s.getV y).toNat then 1 else 0)
    ∧ ChangesOnly (fun f => f = .reg x ∨ f = .reg 15) s t

/-- `SUBN Vx, Vy`: `V[y] - V[x]` modulo 256, with the flag for the reverse order (41_alu.md R66; the flag rule is the
spec's derivation from that of `SUB`). -/
def Obligations.ReverseSubSetsNoBorrow : Prop :=
  ∀ (x y : Reg) (s : State), ∃ t, exec (.subn x y) s = .next t
    ∧ (t.getV x).toNat = ((s.getV y).toNat + 256 - (s.getV x).toNat) % 256
    ∧ (x ≠ 15 → t.getV 15 = if (s.getV y).toNat ≥ (s.getV x).toNat then 1 else 0)
    ∧ ChangesOnly (fun f => f = .reg x ∨ f = .reg 15) s t

/-- `SHR` and `SHL` shift `V[x]` in place by one and put the bit shifted out into `VF`; `V[y]` is not read; where `x`
is 15 the shifted value stays in `VF` (41_alu.md R65, R67, the spec's decision D5, 90_conflicts.md C4). -/
def Obligations.ShiftsMoveOneBitIntoVf : Prop :=
  ∀ (x y : Reg) (s : State),
    (∃ t, exec (.shr x y) s = .next t
      ∧ (t.getV x).toNat = (s.getV x).toNat / 2
      ∧ (x ≠ 15 → (t.getV 15).toNat = (s.getV x).toNat % 2)
      ∧ ChangesOnly (fun f => f = .reg x ∨ f = .reg 15) s t)
    ∧ (∃ t, exec (.shl x y) s = .next t
      ∧ (t.getV x).toNat = 2 * (s.getV x).toNat % 256
      ∧ (x ≠ 15 → (t.getV 15).toNat = (s.getV x).toNat / 128)
      ∧ ChangesOnly (fun f => f = .reg x ∨ f = .reg 15) s t)

/-- `RND Vx, byte`: the random byte supplied with the step, whatever it is, masked bit by bit; `step(r)` supplies `r`
(41_alu.md R68). -/
def Obligations.RandomIsMasked : Prop :=
  ∀ (x : Reg) (nn : Byte) (s : State),
    (∃ t, exec (.rnd x nn) s = .next t
      ∧ (∀ b, (t.getV x).getLsbD b = (s.port.rand.getLsbD b && nn.getLsbD b))
      ∧ ChangesOnly (fun f => f = .reg x) s t)
    ∧ ∀ r, (beginStep r s).port.rand = r

/-- No instruction reads `VF` unless a register field names it: changing `VF` before such an instruction changes
nothing after it but `VF` itself, and not even that for the six instructions that write the flag
(10_state.md R9, 90_conflicts.md C9; that the shifts do not read `V[y]` is the spec's decision D5). -/
def Obligations.VfIsNoHiddenInput : Prop :=
  ∀ (i : Instr) (s t u : State) (b : Byte), ¬ namesReg 15 i →
    exec i s = .next t → exec i (s.setV 15 b) = .next u →
    ChangesOnly (fun f => f = .reg 15) t u ∧ (writesFlag i → u.getV 15 = t.getV 15)

/-! ### Index register and memory transfers (42_index_memory.md) -/

/-- The three writes of `I`: the address; the sum modulo 2^16 with no flag; the glyph address `V[x] * 5` for every
`V[x]` (42_index_memory.md R69, R70, R71; the spec's decisions D20, D10). -/
def Obligations.IndexWritesSetI : Prop :=
  ∀ (x : Reg) (nnn : Addr12) (s : State),
    (∃ t, exec (.ldI nnn) s = .next t ∧ t.i.toNat = nnn.toNat ∧ ChangesOnly (fun f => f = .index) s t)
    ∧ (∃ t, exec (.addI x) s = .next t ∧ t.i.toNat = (s.i.toNat + (s.getV x).toNat) % 65536
      ∧ ChangesOnly (fun f => f = .index) s t)
    ∧ (∃ t, exec (.ldF x) s = .next t ∧ t.i.toNat = (s.getV x).toNat * 5
      ∧ ChangesOnly (fun f => f = .index) s t)

/-- `LD B, Vx`: the hundreds, tens and ones digit at `I`, `I + 1`, `I + 2`, each address reduced on its own, every
other byte unchanged (42_index_memory.md R72, 20_memory.md R21, R28; the reduction of addresses is the spec's
decision D1, and that a digit may fall below 0x200, into the font table too, its D11: log entry 10). -/
def Obligations.StoreBcdWritesThreeDigits : Prop :=
  ∀ (x : Reg) (s : State), MemCanonical s → ∃ t, exec (.ldB x) s = .next t
    ∧ (t.memRead (s.i.toNat)).toNat = (s.getV x).toNat / 100
    ∧ (t.memRead (s.i.toNat + 1)).toNat = (s.getV x).toNat / 10 % 10
    ∧ (t.memRead (s.i.toNat + 2)).toNat = (s.getV x).toNat % 10
    ∧ ChangesOnly (fun f => ∃ a k, f = .byte a ∧ k < 3 ∧ phys a = phys (indexAddr s k)) s t

/-- `LD [I], Vx`: `V[0]..V[x]` at `I..I+x`, each address reduced on its own, every other byte unchanged, `I` unchanged
(42_index_memory.md R73, 20_memory.md R21, R28; the unchanged `I` is the spec's decision D7, the reduction of addresses
D1, writable low memory D11: log entry 10). -/
def Obligations.StoreRegsWritesThemInOrder : Prop :=
  ∀ (x : Reg) (s : State), MemCanonical s → ∃ t, exec (.storeRegs x) s = .next t
    ∧ (∀ k : Reg, k ≤ x → t.memRead (s.i.toNat + k.val) = s.getV k)
    ∧ ChangesOnly (fun f => ∃ a k, f = .byte a ∧ k ≤ x.val ∧ phys a = phys (indexAddr s k)) s t

/-- `LD Vx, [I]`: `V[0]..V[x]` from `I..I+x`, each address reduced on its own, registers above `x`, memory and `I`
unchanged (42_index_memory.md R74, 20_memory.md R21; the unchanged `I` is the spec's decision D7, the reduction of
addresses D1: log entry 10). -/
def Obligations.LoadRegsReadsThemInOrder : Prop :=
  ∀ (x : Reg) (s : State), ∃ t, exec (.loadRegs x) s = .next t
    ∧ (∀ k : Reg, k ≤ x → t.getV k = s.memRead (s.i.toNat + k.val))
    ∧ ChangesOnly (fun f => ∃ k, f = .reg k ∧ k ≤ x) s t

/-- Registers stored and loaded back from the same `I`, with any registers in between, hold what they held
(42_index_memory.md R73, R74; 20_memory.md R21, R28, R30; the spec's decisions D1, D11: log entry 10). -/
def Obligations.StoreThenLoadGivesTheRegistersBack : Prop :=
  ∀ (x : Reg) (s t u : State), MemCanonical s → exec (.storeRegs x) s = .next t → u.mem = t.mem → u.i = s.i →
    ∃ w, exec (.loadRegs x) u = .next w ∧ ∀ k : Reg, k ≤ x → w.getV k = s.getV k

/-- Fetch is coherent with stores: two bytes just stored where `pc` points are the next opcode (20_memory.md R32,
70_reset_and_hazards.md R104, both the spec's derivations; 20_memory.md R21, R28 by the spec's decisions D1, D11:
log entry 10). -/
def Obligations.StoredBytesAreFetchedNext : Prop :=
  ∀ (x k j : Reg) (s t : State), MemCanonical s → exec (.storeRegs x) s = .next t → j ≤ x → j.val = k.val + 1 →
    s.pc.toNat % 4096 = (s.i.toNat + k.val) % 4096 →
    (fetchOpcode t).toNat = 256 * (s.getV k).toNat + (s.getV j).toNat

/-- Only the low 12 bits of `I` reach memory: two states that differ in `I` by a multiple of 4096 stay alike but for
`I` under every instruction (20_memory.md R21, the spec's decision D1). -/
def Obligations.HighBitsOfIndexReachNothing : Prop :=
  ∀ (i : Instr) (s t u : State) (w w' : Word), w.toNat % 4096 = w'.toNat % 4096 →
    exec i (s.setI w) = .next t → exec i (s.setI w') = .next u →
    ChangesOnly (fun f => f = .index) t u

/-! ### The framebuffer (43_display.md) -/

/-- `CLS` sets all 2048 pixels to 0 and changes nothing else, `VF` included (43_display.md R76). -/
def Obligations.ClearResetsEveryPixel : Prop :=
  ∀ s : State, ∃ t, exec .cls s = .next t
    ∧ (∀ px py, px < 64 → py < 32 → t.disp.pixel px py = false)
    ∧ ChangesOnly (fun f => ∃ px py, f = .pixel px py) s t

/-- `DRW` inverts exactly the pixels its clipped sprite covers, and `VF` is 1 if one of them was set, else 0, over the
whole sprite; no sprite bit past an edge changes a pixel or the flag (43_display.md R77; the display's size is the spec's
decision D19, the reduction of the sprite's addresses D1: log entry 10). -/
def Obligations.DrawInvertsTheClippedSprite : Prop :=
  ∀ (x y : Reg) (n : Nibble) (s : State), ∃ t, exec (.drw x y n) s = .next t
    ∧ (∀ px py, px < 64 → py < 32 →
        t.disp.pixel px py = (s.disp.pixel px py ^^ spriteBit s x y n px py))
    ∧ (t.getV 15 = 1 ↔ ∃ px py, px < 64 ∧ py < 32 ∧ spriteBit s x y n px py = true ∧ s.disp.pixel px py = true)
    ∧ (t.getV 15 = 0 ↔ ¬ ∃ px py, px < 64 ∧ py < 32 ∧ spriteBit s x y n px py = true
        ∧ s.disp.pixel px py = true)
    ∧ ChangesOnly (fun f => f = .reg 15 ∨ ∃ px py, f = .pixel px py) s t

/-- Drawing the same sprite at the same place twice restores the display exactly, and the second draw reports exactly
the covered pixels that were clear before the first (95_test_vectors.md E5, 90_conflicts.md C6; 43_display.md R77).
A coordinate held in `VF` is overwritten by the first draw, so neither is there. The sprite's addresses are reduced by
the spec's decision D1 (log entry 10). -/
def Obligations.DrawingTwiceRestoresTheDisplay : Prop :=
  ∀ (x y : Reg) (n : Nibble) (s t u : State), x ≠ 15 → y ≠ 15 →
    exec (.drw x y n) s = .next t → exec (.drw x y n) t = .next u →
    u.disp = s.disp
      ∧ (u.getV 15 = 1 ↔
          ∃ px py, px < 64 ∧ py < 32 ∧ spriteBit s x y n px py = true ∧ s.disp.pixel px py = false)

/-! ### Keypad and timers (44_keys_timers.md) -/

/-- `SKP` skips when the key `V[x]` names is pressed, `SKNP` when it is not; a number above 15 names no key and reads
as not pressed (44_keys_timers.md R78, R79, the spec's decision D9; the wrap of `pc` is its D2). -/
def Obligations.KeySkipsFollowTheKeypad : Prop :=
  ∀ (x : Reg) (s : State),
    (∃ t, exec (.skp x) s = .next t
      ∧ t.pc.toNat = (if (s.getV x).toNat < 16 ∧ s.key.getLsbD (s.getV x).toNat = true
          then (s.pc.toNat + 2) % 65536 else s.pc.toNat)
      ∧ ChangesOnly (fun f => f = .pc) s t)
    ∧ (∃ t, exec (.sknp x) s = .next t
      ∧ t.pc.toNat = (if (s.getV x).toNat < 16 ∧ s.key.getLsbD (s.getV x).toNat = true
          then s.pc.toNat else (s.pc.toNat + 2) % 65536)
      ∧ ChangesOnly (fun f => f = .pc) s t)

/-- `LD Vx, K`: the lowest pressed key goes to `V[x]`; with none pressed `pc` is rewound by 2 modulo 2^16, the status
is `AwaitingKey`, and nothing else changes (44_keys_timers.md R81; the wrap is the spec's decision D2). -/
def Obligations.WaitForKeyTakesTheLowestOrRewinds : Prop :=
  ∀ (x : Reg) (s : State), ∃ t, exec (.ldVxK x) s = .next t
    ∧ (∀ k : Reg, s.key.getLsbD k.val = true → (∀ j : Reg, j < k → s.key.getLsbD j.val = false) →
        (t.getV x).toNat = k.val ∧ ChangesOnly (fun f => f = .reg x) s t)
    ∧ (s.key = 0 → t.pc = s.pc - 2 ∧ t.port.stepStatus = .awaitingKey
        ∧ ChangesOnly (fun f => f = .pc ∨ f = .stepStatus) s t)

/-- With no key pressed, any number of steps at an `FX0A` leaves the machine where it is: every piece of its state,
`pc` included, and the status is `AwaitingKey` (44_keys_timers.md R81, 95_test_vectors.md E10; the wrap of `pc` is the
spec's decision D2; the status is kept in the model's ports, log entry 2). -/
def Obligations.WaitingForAKeyChangesNothing : Prop :=
  ∀ (x : Reg) (r : Byte) (rs : List Byte) (s : State), decode (fetchOpcode s) = .instr (.ldVxK x) → s.key = 0 →
    s.port.loadStatus ≠ .loadFailure →
    ∃ t, runCommands ((r :: rs).map .step) s = .next t ∧ t.port.stepStatus = .awaitingKey
      ∧ ChangesOnly (fun f => f = .rand ∨ f = .stepStatus) s t

/-- A step reports `AwaitingKey` exactly when it ran `FX0A` with no key pressed: the wait needs no flag of its own
(30_encoding.md R36, 44_keys_timers.md R81, 90_conflicts.md C8). -/
def Obligations.AwaitingKeyOnlyAtAWaitWithNoKey : Prop :=
  ∀ (r : Byte) (s t : State), s.port.loadStatus ≠ .loadFailure → applyCommand (.step r) s = .next t →
    (t.port.stepStatus = .awaitingKey ↔ (∃ x, decode (fetchOpcode s) = .instr (.ldVxK x)) ∧ s.key = 0)

/-- `LD Vx, DT` reads the delay timer, `LD DT, Vx` and `LD ST, Vx` write the timers, and nothing else changes
(44_keys_timers.md R80, R82; R83's write likewise). -/
def Obligations.TimerTransfersMoveOneByte : Prop :=
  ∀ (x : Reg) (s : State),
    (∃ t, exec (.ldVxDt x) s = .next t ∧ t.getV x = s.dt ∧ ChangesOnly (fun f => f = .reg x) s t)
    ∧ (∃ t, exec (.ldDtVx x) s = .next t ∧ t.dt = s.getV x ∧ ChangesOnly (fun f => f = .dt) s t)
    ∧ (∃ t, exec (.ldStVx x) s = .next t ∧ t.st = s.getV x ∧ ChangesOnly (fun f => f = .st) s t)

/-! ### Whole-machine rules -/

/-- Every instruction completes in every state and changes only what the spec lets it write: no exception, no fault,
no partial effect (60_exceptions.md R84, R87; 10_state.md R8 to R17; 20_memory.md R29; the frame follows the spec's
decisions D1, D3, D4, D6 and D7: log entry 10). -/
def Obligations.EveryInstructionCompletesWithinItsFrame : Prop :=
  ∀ (i : Instr) (s : State), ∃ t, exec i s = .next t ∧ ChangesOnly (mayWrite i s) s t

/-- Who writes what, from the prose of 10_state.md R10, R12, R13, R14, R15, R17 and 20_memory.md R29: `I` only by
`ANNN`, `FX1E`, `FX29`; the stack only by `CALL` and `RET`; `DT` only by `FX15`; `ST` only by `FX18`; the keypad by
no instruction; the display only by `CLS` and `DXYN`; memory only by `FX33` and `FX55`. -/
def Obligations.EachPartHasItsOwnWriters : Prop :=
  ∀ (i : Instr) (s t : State), exec i s = .next t →
    (t.i = s.i ∨ (∃ a, i = .ldI a) ∨ (∃ x, i = .addI x) ∨ ∃ x, i = .ldF x)
    ∧ ((t.stack = s.stack ∧ t.sp = s.sp) ∨ (∃ a, i = .call a) ∨ i = .ret)
    ∧ (t.dt = s.dt ∨ ∃ x, i = .ldDtVx x) ∧ (t.st = s.st ∨ ∃ x, i = .ldStVx x)
    ∧ t.key = s.key
    ∧ (t.disp = s.disp ∨ i = .cls ∨ ∃ x y n, i = .drw x y n)
    ∧ (t.mem = s.mem ∨ (∃ x, i = .ldB x) ∨ ∃ x, i = .storeRegs x)
    ∧ (t.stackOverflow = s.stackOverflow ∨ ∃ a, i = .call a)
    ∧ (t.stackUnderflow = s.stackUnderflow ∨ i = .ret)

/-- The sticky bits stay set until `reset`: no other command, and so no instruction, clears them (10_state.md R17,
the spec's decisions D3, D4). -/
def Obligations.StickyBitsStayUntilReset : Prop :=
  ∀ s t : State, step s = .next t → nextCommand s ≠ .reset →
    (s.stackOverflow = true → t.stackOverflow = true) ∧ (s.stackUnderflow = true → t.stackUnderflow = true)
end

