-- ==== Sys2Proof/Laws/State.lean ====
section
/-! SUPPORT. What each update of the state does to each field, one lemma per field per update, and to what
`getV` and `memRead` read, so that no proof unfolds a record update. -/

namespace Sys2Proof
namespace Machine

/-! ### `setV` -/

@[simp] theorem State.setV_v (s : State) (r : Reg) (b : Byte) : (s.setV r b).v = s.v.set r.val b := rfl
@[simp] theorem State.setV_i (s : State) (r : Reg) (b : Byte) : (s.setV r b).i = s.i := rfl
@[simp] theorem State.setV_pc (s : State) (r : Reg) (b : Byte) : (s.setV r b).pc = s.pc := rfl
@[simp] theorem State.setV_stack (s : State) (r : Reg) (b : Byte) : (s.setV r b).stack = s.stack := rfl
@[simp] theorem State.setV_sp (s : State) (r : Reg) (b : Byte) : (s.setV r b).sp = s.sp := rfl
@[simp] theorem State.setV_dt (s : State) (r : Reg) (b : Byte) : (s.setV r b).dt = s.dt := rfl
@[simp] theorem State.setV_st (s : State) (r : Reg) (b : Byte) : (s.setV r b).st = s.st := rfl
@[simp] theorem State.setV_key (s : State) (r : Reg) (b : Byte) : (s.setV r b).key = s.key := rfl
@[simp] theorem State.setV_disp (s : State) (r : Reg) (b : Byte) : (s.setV r b).disp = s.disp := rfl
@[simp] theorem State.setV_mem (s : State) (r : Reg) (b : Byte) : (s.setV r b).mem = s.mem := rfl
@[simp] theorem State.setV_stackOverflow (s : State) (r : Reg) (b : Byte) : (s.setV r b).stackOverflow = s.stackOverflow := rfl
@[simp] theorem State.setV_stackUnderflow (s : State) (r : Reg) (b : Byte) : (s.setV r b).stackUnderflow = s.stackUnderflow := rfl
@[simp] theorem State.setV_port (s : State) (r : Reg) (b : Byte) : (s.setV r b).port = s.port := rfl
@[simp] theorem State.setV_memRead (s : State) (r : Reg) (b : Byte) (q : Nat) : (s.setV r b).memRead q = s.memRead q := rfl

/-! ### `setI` -/

@[simp] theorem State.setI_v (s : State) (w : Word) : (s.setI w).v = s.v := rfl
@[simp] theorem State.setI_i (s : State) (w : Word) : (s.setI w).i = w := rfl
@[simp] theorem State.setI_pc (s : State) (w : Word) : (s.setI w).pc = s.pc := rfl
@[simp] theorem State.setI_stack (s : State) (w : Word) : (s.setI w).stack = s.stack := rfl
@[simp] theorem State.setI_sp (s : State) (w : Word) : (s.setI w).sp = s.sp := rfl
@[simp] theorem State.setI_dt (s : State) (w : Word) : (s.setI w).dt = s.dt := rfl
@[simp] theorem State.setI_st (s : State) (w : Word) : (s.setI w).st = s.st := rfl
@[simp] theorem State.setI_key (s : State) (w : Word) : (s.setI w).key = s.key := rfl
@[simp] theorem State.setI_disp (s : State) (w : Word) : (s.setI w).disp = s.disp := rfl
@[simp] theorem State.setI_mem (s : State) (w : Word) : (s.setI w).mem = s.mem := rfl
@[simp] theorem State.setI_stackOverflow (s : State) (w : Word) : (s.setI w).stackOverflow = s.stackOverflow := rfl
@[simp] theorem State.setI_stackUnderflow (s : State) (w : Word) : (s.setI w).stackUnderflow = s.stackUnderflow := rfl
@[simp] theorem State.setI_port (s : State) (w : Word) : (s.setI w).port = s.port := rfl
@[simp] theorem State.setI_getV (s : State) (w : Word) (q : Reg) : (s.setI w).getV q = s.getV q := rfl
@[simp] theorem State.setI_memRead (s : State) (w : Word) (q : Nat) : (s.setI w).memRead q = s.memRead q := rfl

/-! ### `setPc` -/

@[simp] theorem State.setPc_v (s : State) (w : Word) : (s.setPc w).v = s.v := rfl
@[simp] theorem State.setPc_i (s : State) (w : Word) : (s.setPc w).i = s.i := rfl
@[simp] theorem State.setPc_pc (s : State) (w : Word) : (s.setPc w).pc = w := rfl
@[simp] theorem State.setPc_stack (s : State) (w : Word) : (s.setPc w).stack = s.stack := rfl
@[simp] theorem State.setPc_sp (s : State) (w : Word) : (s.setPc w).sp = s.sp := rfl
@[simp] theorem State.setPc_dt (s : State) (w : Word) : (s.setPc w).dt = s.dt := rfl
@[simp] theorem State.setPc_st (s : State) (w : Word) : (s.setPc w).st = s.st := rfl
@[simp] theorem State.setPc_key (s : State) (w : Word) : (s.setPc w).key = s.key := rfl
@[simp] theorem State.setPc_disp (s : State) (w : Word) : (s.setPc w).disp = s.disp := rfl
@[simp] theorem State.setPc_mem (s : State) (w : Word) : (s.setPc w).mem = s.mem := rfl
@[simp] theorem State.setPc_stackOverflow (s : State) (w : Word) : (s.setPc w).stackOverflow = s.stackOverflow := rfl
@[simp] theorem State.setPc_stackUnderflow (s : State) (w : Word) : (s.setPc w).stackUnderflow = s.stackUnderflow := rfl
@[simp] theorem State.setPc_port (s : State) (w : Word) : (s.setPc w).port = s.port := rfl
@[simp] theorem State.setPc_getV (s : State) (w : Word) (q : Reg) : (s.setPc w).getV q = s.getV q := rfl
@[simp] theorem State.setPc_memRead (s : State) (w : Word) (q : Nat) : (s.setPc w).memRead q = s.memRead q := rfl

/-! ### `setDt` -/

@[simp] theorem State.setDt_v (s : State) (b : Byte) : (s.setDt b).v = s.v := rfl
@[simp] theorem State.setDt_i (s : State) (b : Byte) : (s.setDt b).i = s.i := rfl
@[simp] theorem State.setDt_pc (s : State) (b : Byte) : (s.setDt b).pc = s.pc := rfl
@[simp] theorem State.setDt_stack (s : State) (b : Byte) : (s.setDt b).stack = s.stack := rfl
@[simp] theorem State.setDt_sp (s : State) (b : Byte) : (s.setDt b).sp = s.sp := rfl
@[simp] theorem State.setDt_dt (s : State) (b : Byte) : (s.setDt b).dt = b := rfl
@[simp] theorem State.setDt_st (s : State) (b : Byte) : (s.setDt b).st = s.st := rfl
@[simp] theorem State.setDt_key (s : State) (b : Byte) : (s.setDt b).key = s.key := rfl
@[simp] theorem State.setDt_disp (s : State) (b : Byte) : (s.setDt b).disp = s.disp := rfl
@[simp] theorem State.setDt_mem (s : State) (b : Byte) : (s.setDt b).mem = s.mem := rfl
@[simp] theorem State.setDt_stackOverflow (s : State) (b : Byte) : (s.setDt b).stackOverflow = s.stackOverflow := rfl
@[simp] theorem State.setDt_stackUnderflow (s : State) (b : Byte) : (s.setDt b).stackUnderflow = s.stackUnderflow := rfl
@[simp] theorem State.setDt_port (s : State) (b : Byte) : (s.setDt b).port = s.port := rfl
@[simp] theorem State.setDt_getV (s : State) (b : Byte) (q : Reg) : (s.setDt b).getV q = s.getV q := rfl
@[simp] theorem State.setDt_memRead (s : State) (b : Byte) (q : Nat) : (s.setDt b).memRead q = s.memRead q := rfl

/-! ### `setSt` -/

@[simp] theorem State.setSt_v (s : State) (b : Byte) : (s.setSt b).v = s.v := rfl
@[simp] theorem State.setSt_i (s : State) (b : Byte) : (s.setSt b).i = s.i := rfl
@[simp] theorem State.setSt_pc (s : State) (b : Byte) : (s.setSt b).pc = s.pc := rfl
@[simp] theorem State.setSt_stack (s : State) (b : Byte) : (s.setSt b).stack = s.stack := rfl
@[simp] theorem State.setSt_sp (s : State) (b : Byte) : (s.setSt b).sp = s.sp := rfl
@[simp] theorem State.setSt_dt (s : State) (b : Byte) : (s.setSt b).dt = s.dt := rfl
@[simp] theorem State.setSt_st (s : State) (b : Byte) : (s.setSt b).st = b := rfl
@[simp] theorem State.setSt_key (s : State) (b : Byte) : (s.setSt b).key = s.key := rfl
@[simp] theorem State.setSt_disp (s : State) (b : Byte) : (s.setSt b).disp = s.disp := rfl
@[simp] theorem State.setSt_mem (s : State) (b : Byte) : (s.setSt b).mem = s.mem := rfl
@[simp] theorem State.setSt_stackOverflow (s : State) (b : Byte) : (s.setSt b).stackOverflow = s.stackOverflow := rfl
@[simp] theorem State.setSt_stackUnderflow (s : State) (b : Byte) : (s.setSt b).stackUnderflow = s.stackUnderflow := rfl
@[simp] theorem State.setSt_port (s : State) (b : Byte) : (s.setSt b).port = s.port := rfl
@[simp] theorem State.setSt_getV (s : State) (b : Byte) (q : Reg) : (s.setSt b).getV q = s.getV q := rfl
@[simp] theorem State.setSt_memRead (s : State) (b : Byte) (q : Nat) : (s.setSt b).memRead q = s.memRead q := rfl

/-! ### `setKey` -/

@[simp] theorem State.setKey_v (s : State) (k : Keys) : (s.setKey k).v = s.v := rfl
@[simp] theorem State.setKey_i (s : State) (k : Keys) : (s.setKey k).i = s.i := rfl
@[simp] theorem State.setKey_pc (s : State) (k : Keys) : (s.setKey k).pc = s.pc := rfl
@[simp] theorem State.setKey_stack (s : State) (k : Keys) : (s.setKey k).stack = s.stack := rfl
@[simp] theorem State.setKey_sp (s : State) (k : Keys) : (s.setKey k).sp = s.sp := rfl
@[simp] theorem State.setKey_dt (s : State) (k : Keys) : (s.setKey k).dt = s.dt := rfl
@[simp] theorem State.setKey_st (s : State) (k : Keys) : (s.setKey k).st = s.st := rfl
@[simp] theorem State.setKey_key (s : State) (k : Keys) : (s.setKey k).key = k := rfl
@[simp] theorem State.setKey_disp (s : State) (k : Keys) : (s.setKey k).disp = s.disp := rfl
@[simp] theorem State.setKey_mem (s : State) (k : Keys) : (s.setKey k).mem = s.mem := rfl
@[simp] theorem State.setKey_stackOverflow (s : State) (k : Keys) : (s.setKey k).stackOverflow = s.stackOverflow := rfl
@[simp] theorem State.setKey_stackUnderflow (s : State) (k : Keys) : (s.setKey k).stackUnderflow = s.stackUnderflow := rfl
@[simp] theorem State.setKey_port (s : State) (k : Keys) : (s.setKey k).port = s.port := rfl
@[simp] theorem State.setKey_getV (s : State) (k : Keys) (q : Reg) : (s.setKey k).getV q = s.getV q := rfl
@[simp] theorem State.setKey_memRead (s : State) (k : Keys) (q : Nat) : (s.setKey k).memRead q = s.memRead q := rfl

/-! ### `setDisp` -/

@[simp] theorem State.setDisp_v (s : State) (d : Display) : (s.setDisp d).v = s.v := rfl
@[simp] theorem State.setDisp_i (s : State) (d : Display) : (s.setDisp d).i = s.i := rfl
@[simp] theorem State.setDisp_pc (s : State) (d : Display) : (s.setDisp d).pc = s.pc := rfl
@[simp] theorem State.setDisp_stack (s : State) (d : Display) : (s.setDisp d).stack = s.stack := rfl
@[simp] theorem State.setDisp_sp (s : State) (d : Display) : (s.setDisp d).sp = s.sp := rfl
@[simp] theorem State.setDisp_dt (s : State) (d : Display) : (s.setDisp d).dt = s.dt := rfl
@[simp] theorem State.setDisp_st (s : State) (d : Display) : (s.setDisp d).st = s.st := rfl
@[simp] theorem State.setDisp_key (s : State) (d : Display) : (s.setDisp d).key = s.key := rfl
@[simp] theorem State.setDisp_disp (s : State) (d : Display) : (s.setDisp d).disp = d := rfl
@[simp] theorem State.setDisp_mem (s : State) (d : Display) : (s.setDisp d).mem = s.mem := rfl
@[simp] theorem State.setDisp_stackOverflow (s : State) (d : Display) : (s.setDisp d).stackOverflow = s.stackOverflow := rfl
@[simp] theorem State.setDisp_stackUnderflow (s : State) (d : Display) : (s.setDisp d).stackUnderflow = s.stackUnderflow := rfl
@[simp] theorem State.setDisp_port (s : State) (d : Display) : (s.setDisp d).port = s.port := rfl
@[simp] theorem State.setDisp_getV (s : State) (d : Display) (q : Reg) : (s.setDisp d).getV q = s.getV q := rfl
@[simp] theorem State.setDisp_memRead (s : State) (d : Display) (q : Nat) : (s.setDisp d).memRead q = s.memRead q := rfl

/-! ### `setPort` -/

@[simp] theorem State.setPort_v (s : State) (p : Port) : (s.setPort p).v = s.v := rfl
@[simp] theorem State.setPort_i (s : State) (p : Port) : (s.setPort p).i = s.i := rfl
@[simp] theorem State.setPort_pc (s : State) (p : Port) : (s.setPort p).pc = s.pc := rfl
@[simp] theorem State.setPort_stack (s : State) (p : Port) : (s.setPort p).stack = s.stack := rfl
@[simp] theorem State.setPort_sp (s : State) (p : Port) : (s.setPort p).sp = s.sp := rfl
@[simp] theorem State.setPort_dt (s : State) (p : Port) : (s.setPort p).dt = s.dt := rfl
@[simp] theorem State.setPort_st (s : State) (p : Port) : (s.setPort p).st = s.st := rfl
@[simp] theorem State.setPort_key (s : State) (p : Port) : (s.setPort p).key = s.key := rfl
@[simp] theorem State.setPort_disp (s : State) (p : Port) : (s.setPort p).disp = s.disp := rfl
@[simp] theorem State.setPort_mem (s : State) (p : Port) : (s.setPort p).mem = s.mem := rfl
@[simp] theorem State.setPort_stackOverflow (s : State) (p : Port) : (s.setPort p).stackOverflow = s.stackOverflow := rfl
@[simp] theorem State.setPort_stackUnderflow (s : State) (p : Port) : (s.setPort p).stackUnderflow = s.stackUnderflow := rfl
@[simp] theorem State.setPort_port (s : State) (p : Port) : (s.setPort p).port = p := rfl
@[simp] theorem State.setPort_getV (s : State) (p : Port) (q : Reg) : (s.setPort p).getV q = s.getV q := rfl
@[simp] theorem State.setPort_memRead (s : State) (p : Port) (q : Nat) : (s.setPort p).memRead q = s.memRead q := rfl

/-! ### `setStepStatus` -/

@[simp] theorem State.setStepStatus_v (s : State) (x : StepStatus) : (s.setStepStatus x).v = s.v := rfl
@[simp] theorem State.setStepStatus_i (s : State) (x : StepStatus) : (s.setStepStatus x).i = s.i := rfl
@[simp] theorem State.setStepStatus_pc (s : State) (x : StepStatus) : (s.setStepStatus x).pc = s.pc := rfl
@[simp] theorem State.setStepStatus_stack (s : State) (x : StepStatus) : (s.setStepStatus x).stack = s.stack := rfl
@[simp] theorem State.setStepStatus_sp (s : State) (x : StepStatus) : (s.setStepStatus x).sp = s.sp := rfl
@[simp] theorem State.setStepStatus_dt (s : State) (x : StepStatus) : (s.setStepStatus x).dt = s.dt := rfl
@[simp] theorem State.setStepStatus_st (s : State) (x : StepStatus) : (s.setStepStatus x).st = s.st := rfl
@[simp] theorem State.setStepStatus_key (s : State) (x : StepStatus) : (s.setStepStatus x).key = s.key := rfl
@[simp] theorem State.setStepStatus_disp (s : State) (x : StepStatus) : (s.setStepStatus x).disp = s.disp := rfl
@[simp] theorem State.setStepStatus_mem (s : State) (x : StepStatus) : (s.setStepStatus x).mem = s.mem := rfl
@[simp] theorem State.setStepStatus_stackOverflow (s : State) (x : StepStatus) : (s.setStepStatus x).stackOverflow = s.stackOverflow := rfl
@[simp] theorem State.setStepStatus_stackUnderflow (s : State) (x : StepStatus) : (s.setStepStatus x).stackUnderflow = s.stackUnderflow := rfl
@[simp] theorem State.setStepStatus_port (s : State) (x : StepStatus) : (s.setStepStatus x).port = { s.port with stepStatus := x } := rfl
@[simp] theorem State.setStepStatus_getV (s : State) (x : StepStatus) (q : Reg) : (s.setStepStatus x).getV q = s.getV q := rfl
@[simp] theorem State.setStepStatus_memRead (s : State) (x : StepStatus) (q : Nat) : (s.setStepStatus x).memRead q = s.memRead q := rfl

/-! ### `setLoadStatus` -/

@[simp] theorem State.setLoadStatus_v (s : State) (x : LoadStatus) : (s.setLoadStatus x).v = s.v := rfl
@[simp] theorem State.setLoadStatus_i (s : State) (x : LoadStatus) : (s.setLoadStatus x).i = s.i := rfl
@[simp] theorem State.setLoadStatus_pc (s : State) (x : LoadStatus) : (s.setLoadStatus x).pc = s.pc := rfl
@[simp] theorem State.setLoadStatus_stack (s : State) (x : LoadStatus) : (s.setLoadStatus x).stack = s.stack := rfl
@[simp] theorem State.setLoadStatus_sp (s : State) (x : LoadStatus) : (s.setLoadStatus x).sp = s.sp := rfl
@[simp] theorem State.setLoadStatus_dt (s : State) (x : LoadStatus) : (s.setLoadStatus x).dt = s.dt := rfl
@[simp] theorem State.setLoadStatus_st (s : State) (x : LoadStatus) : (s.setLoadStatus x).st = s.st := rfl
@[simp] theorem State.setLoadStatus_key (s : State) (x : LoadStatus) : (s.setLoadStatus x).key = s.key := rfl
@[simp] theorem State.setLoadStatus_disp (s : State) (x : LoadStatus) : (s.setLoadStatus x).disp = s.disp := rfl
@[simp] theorem State.setLoadStatus_mem (s : State) (x : LoadStatus) : (s.setLoadStatus x).mem = s.mem := rfl
@[simp] theorem State.setLoadStatus_stackOverflow (s : State) (x : LoadStatus) : (s.setLoadStatus x).stackOverflow = s.stackOverflow := rfl
@[simp] theorem State.setLoadStatus_stackUnderflow (s : State) (x : LoadStatus) : (s.setLoadStatus x).stackUnderflow = s.stackUnderflow := rfl
@[simp] theorem State.setLoadStatus_port (s : State) (x : LoadStatus) : (s.setLoadStatus x).port = { s.port with loadStatus := x } := rfl
@[simp] theorem State.setLoadStatus_getV (s : State) (x : LoadStatus) (q : Reg) : (s.setLoadStatus x).getV q = s.getV q := rfl
@[simp] theorem State.setLoadStatus_memRead (s : State) (x : LoadStatus) (q : Nat) : (s.setLoadStatus x).memRead q = s.memRead q := rfl

/-! ### `setPending` -/

@[simp] theorem State.setPending_v (s : State) (cs : List Command) : (s.setPending cs).v = s.v := rfl
@[simp] theorem State.setPending_i (s : State) (cs : List Command) : (s.setPending cs).i = s.i := rfl
@[simp] theorem State.setPending_pc (s : State) (cs : List Command) : (s.setPending cs).pc = s.pc := rfl
@[simp] theorem State.setPending_stack (s : State) (cs : List Command) : (s.setPending cs).stack = s.stack := rfl
@[simp] theorem State.setPending_sp (s : State) (cs : List Command) : (s.setPending cs).sp = s.sp := rfl
@[simp] theorem State.setPending_dt (s : State) (cs : List Command) : (s.setPending cs).dt = s.dt := rfl
@[simp] theorem State.setPending_st (s : State) (cs : List Command) : (s.setPending cs).st = s.st := rfl
@[simp] theorem State.setPending_key (s : State) (cs : List Command) : (s.setPending cs).key = s.key := rfl
@[simp] theorem State.setPending_disp (s : State) (cs : List Command) : (s.setPending cs).disp = s.disp := rfl
@[simp] theorem State.setPending_mem (s : State) (cs : List Command) : (s.setPending cs).mem = s.mem := rfl
@[simp] theorem State.setPending_stackOverflow (s : State) (cs : List Command) : (s.setPending cs).stackOverflow = s.stackOverflow := rfl
@[simp] theorem State.setPending_stackUnderflow (s : State) (cs : List Command) : (s.setPending cs).stackUnderflow = s.stackUnderflow := rfl
@[simp] theorem State.setPending_port (s : State) (cs : List Command) : (s.setPending cs).port = { s.port with pending := cs } := rfl
@[simp] theorem State.setPending_getV (s : State) (cs : List Command) (q : Reg) : (s.setPending cs).getV q = s.getV q := rfl
@[simp] theorem State.setPending_memRead (s : State) (cs : List Command) (q : Nat) : (s.setPending cs).memRead q = s.memRead q := rfl

/-! ### `countDraw` -/

@[simp] theorem State.countDraw_v (s : State) : (s.countDraw).v = s.v := rfl
@[simp] theorem State.countDraw_i (s : State) : (s.countDraw).i = s.i := rfl
@[simp] theorem State.countDraw_pc (s : State) : (s.countDraw).pc = s.pc := rfl
@[simp] theorem State.countDraw_stack (s : State) : (s.countDraw).stack = s.stack := rfl
@[simp] theorem State.countDraw_sp (s : State) : (s.countDraw).sp = s.sp := rfl
@[simp] theorem State.countDraw_dt (s : State) : (s.countDraw).dt = s.dt := rfl
@[simp] theorem State.countDraw_st (s : State) : (s.countDraw).st = s.st := rfl
@[simp] theorem State.countDraw_key (s : State) : (s.countDraw).key = s.key := rfl
@[simp] theorem State.countDraw_disp (s : State) : (s.countDraw).disp = s.disp := rfl
@[simp] theorem State.countDraw_mem (s : State) : (s.countDraw).mem = s.mem := rfl
@[simp] theorem State.countDraw_stackOverflow (s : State) : (s.countDraw).stackOverflow = s.stackOverflow := rfl
@[simp] theorem State.countDraw_stackUnderflow (s : State) : (s.countDraw).stackUnderflow = s.stackUnderflow := rfl
@[simp] theorem State.countDraw_port (s : State) : (s.countDraw).port = { s.port with draws := s.port.draws + 1 } := rfl
@[simp] theorem State.countDraw_getV (s : State) (q : Reg) : (s.countDraw).getV q = s.getV q := rfl
@[simp] theorem State.countDraw_memRead (s : State) (q : Nat) : (s.countDraw).memRead q = s.memRead q := rfl

/-! ### `push` -/

@[simp] theorem State.push_v (s : State) (w : Word) (h : s.sp.val < 16) : (s.push w h).v = s.v := rfl
@[simp] theorem State.push_i (s : State) (w : Word) (h : s.sp.val < 16) : (s.push w h).i = s.i := rfl
@[simp] theorem State.push_pc (s : State) (w : Word) (h : s.sp.val < 16) : (s.push w h).pc = s.pc := rfl
@[simp] theorem State.push_stack (s : State) (w : Word) (h : s.sp.val < 16) : (s.push w h).stack = s.stack.set s.sp.val w := rfl
@[simp] theorem State.push_sp (s : State) (w : Word) (h : s.sp.val < 16) : (s.push w h).sp = ⟨s.sp.val + 1, by omega⟩ := rfl
@[simp] theorem State.push_dt (s : State) (w : Word) (h : s.sp.val < 16) : (s.push w h).dt = s.dt := rfl
@[simp] theorem State.push_st (s : State) (w : Word) (h : s.sp.val < 16) : (s.push w h).st = s.st := rfl
@[simp] theorem State.push_key (s : State) (w : Word) (h : s.sp.val < 16) : (s.push w h).key = s.key := rfl
@[simp] theorem State.push_disp (s : State) (w : Word) (h : s.sp.val < 16) : (s.push w h).disp = s.disp := rfl
@[simp] theorem State.push_mem (s : State) (w : Word) (h : s.sp.val < 16) : (s.push w h).mem = s.mem := rfl
@[simp] theorem State.push_stackOverflow (s : State) (w : Word) (h : s.sp.val < 16) : (s.push w h).stackOverflow = s.stackOverflow := rfl
@[simp] theorem State.push_stackUnderflow (s : State) (w : Word) (h : s.sp.val < 16) : (s.push w h).stackUnderflow = s.stackUnderflow := rfl
@[simp] theorem State.push_port (s : State) (w : Word) (h : s.sp.val < 16) : (s.push w h).port = s.port := rfl
@[simp] theorem State.push_getV (s : State) (w : Word) (h : s.sp.val < 16) (q : Reg) : (s.push w h).getV q = s.getV q := rfl
@[simp] theorem State.push_memRead (s : State) (w : Word) (h : s.sp.val < 16) (q : Nat) : (s.push w h).memRead q = s.memRead q := rfl

/-! ### `dropTop` -/

@[simp] theorem State.dropTop_v (s : State) : (s.dropTop).v = s.v := rfl
@[simp] theorem State.dropTop_i (s : State) : (s.dropTop).i = s.i := rfl
@[simp] theorem State.dropTop_pc (s : State) : (s.dropTop).pc = s.pc := rfl
@[simp] theorem State.dropTop_stack (s : State) : (s.dropTop).stack = s.stack := rfl
@[simp] theorem State.dropTop_sp (s : State) : (s.dropTop).sp = ⟨s.sp.val - 1, by have := s.sp.isLt; omega⟩ := rfl
@[simp] theorem State.dropTop_dt (s : State) : (s.dropTop).dt = s.dt := rfl
@[simp] theorem State.dropTop_st (s : State) : (s.dropTop).st = s.st := rfl
@[simp] theorem State.dropTop_key (s : State) : (s.dropTop).key = s.key := rfl
@[simp] theorem State.dropTop_disp (s : State) : (s.dropTop).disp = s.disp := rfl
@[simp] theorem State.dropTop_mem (s : State) : (s.dropTop).mem = s.mem := rfl
@[simp] theorem State.dropTop_stackOverflow (s : State) : (s.dropTop).stackOverflow = s.stackOverflow := rfl
@[simp] theorem State.dropTop_stackUnderflow (s : State) : (s.dropTop).stackUnderflow = s.stackUnderflow := rfl
@[simp] theorem State.dropTop_port (s : State) : (s.dropTop).port = s.port := rfl
@[simp] theorem State.dropTop_getV (s : State) (q : Reg) : (s.dropTop).getV q = s.getV q := rfl
@[simp] theorem State.dropTop_memRead (s : State) (q : Nat) : (s.dropTop).memRead q = s.memRead q := rfl

/-! ### `setOverflow` -/

@[simp] theorem State.setOverflow_v (s : State) : (s.setOverflow).v = s.v := rfl
@[simp] theorem State.setOverflow_i (s : State) : (s.setOverflow).i = s.i := rfl
@[simp] theorem State.setOverflow_pc (s : State) : (s.setOverflow).pc = s.pc := rfl
@[simp] theorem State.setOverflow_stack (s : State) : (s.setOverflow).stack = s.stack := rfl
@[simp] theorem State.setOverflow_sp (s : State) : (s.setOverflow).sp = s.sp := rfl
@[simp] theorem State.setOverflow_dt (s : State) : (s.setOverflow).dt = s.dt := rfl
@[simp] theorem State.setOverflow_st (s : State) : (s.setOverflow).st = s.st := rfl
@[simp] theorem State.setOverflow_key (s : State) : (s.setOverflow).key = s.key := rfl
@[simp] theorem State.setOverflow_disp (s : State) : (s.setOverflow).disp = s.disp := rfl
@[simp] theorem State.setOverflow_mem (s : State) : (s.setOverflow).mem = s.mem := rfl
@[simp] theorem State.setOverflow_stackOverflow (s : State) : (s.setOverflow).stackOverflow = true := rfl
@[simp] theorem State.setOverflow_stackUnderflow (s : State) : (s.setOverflow).stackUnderflow = s.stackUnderflow := rfl
@[simp] theorem State.setOverflow_port (s : State) : (s.setOverflow).port = s.port := rfl
@[simp] theorem State.setOverflow_getV (s : State) (q : Reg) : (s.setOverflow).getV q = s.getV q := rfl
@[simp] theorem State.setOverflow_memRead (s : State) (q : Nat) : (s.setOverflow).memRead q = s.memRead q := rfl

/-! ### `setUnderflow` -/

@[simp] theorem State.setUnderflow_v (s : State) : (s.setUnderflow).v = s.v := rfl
@[simp] theorem State.setUnderflow_i (s : State) : (s.setUnderflow).i = s.i := rfl
@[simp] theorem State.setUnderflow_pc (s : State) : (s.setUnderflow).pc = s.pc := rfl
@[simp] theorem State.setUnderflow_stack (s : State) : (s.setUnderflow).stack = s.stack := rfl
@[simp] theorem State.setUnderflow_sp (s : State) : (s.setUnderflow).sp = s.sp := rfl
@[simp] theorem State.setUnderflow_dt (s : State) : (s.setUnderflow).dt = s.dt := rfl
@[simp] theorem State.setUnderflow_st (s : State) : (s.setUnderflow).st = s.st := rfl
@[simp] theorem State.setUnderflow_key (s : State) : (s.setUnderflow).key = s.key := rfl
@[simp] theorem State.setUnderflow_disp (s : State) : (s.setUnderflow).disp = s.disp := rfl
@[simp] theorem State.setUnderflow_mem (s : State) : (s.setUnderflow).mem = s.mem := rfl
@[simp] theorem State.setUnderflow_stackOverflow (s : State) : (s.setUnderflow).stackOverflow = s.stackOverflow := rfl
@[simp] theorem State.setUnderflow_stackUnderflow (s : State) : (s.setUnderflow).stackUnderflow = true := rfl
@[simp] theorem State.setUnderflow_port (s : State) : (s.setUnderflow).port = s.port := rfl
@[simp] theorem State.setUnderflow_getV (s : State) (q : Reg) : (s.setUnderflow).getV q = s.getV q := rfl
@[simp] theorem State.setUnderflow_memRead (s : State) (q : Nat) : (s.setUnderflow).memRead q = s.memRead q := rfl

/-! ### `memWrite` -/

@[simp] theorem State.memWrite_v (s : State) (a : Nat) (b : Byte) : (s.memWrite a b).v = s.v := rfl
@[simp] theorem State.memWrite_i (s : State) (a : Nat) (b : Byte) : (s.memWrite a b).i = s.i := rfl
@[simp] theorem State.memWrite_pc (s : State) (a : Nat) (b : Byte) : (s.memWrite a b).pc = s.pc := rfl
@[simp] theorem State.memWrite_stack (s : State) (a : Nat) (b : Byte) : (s.memWrite a b).stack = s.stack := rfl
@[simp] theorem State.memWrite_sp (s : State) (a : Nat) (b : Byte) : (s.memWrite a b).sp = s.sp := rfl
@[simp] theorem State.memWrite_dt (s : State) (a : Nat) (b : Byte) : (s.memWrite a b).dt = s.dt := rfl
@[simp] theorem State.memWrite_st (s : State) (a : Nat) (b : Byte) : (s.memWrite a b).st = s.st := rfl
@[simp] theorem State.memWrite_key (s : State) (a : Nat) (b : Byte) : (s.memWrite a b).key = s.key := rfl
@[simp] theorem State.memWrite_disp (s : State) (a : Nat) (b : Byte) : (s.memWrite a b).disp = s.disp := rfl
@[simp] theorem State.memWrite_mem (s : State) (a : Nat) (b : Byte) : (s.memWrite a b).mem = s.mem.write (phys a) b := rfl
@[simp] theorem State.memWrite_stackOverflow (s : State) (a : Nat) (b : Byte) : (s.memWrite a b).stackOverflow = s.stackOverflow := rfl
@[simp] theorem State.memWrite_stackUnderflow (s : State) (a : Nat) (b : Byte) : (s.memWrite a b).stackUnderflow = s.stackUnderflow := rfl
@[simp] theorem State.memWrite_port (s : State) (a : Nat) (b : Byte) : (s.memWrite a b).port = s.port := rfl
@[simp] theorem State.memWrite_getV (s : State) (a : Nat) (b : Byte) (q : Reg) : (s.memWrite a b).getV q = s.getV q := rfl

/-! ### Register reads -/

theorem State.getV_setV (s : State) (r q : Reg) (b : Byte) :
    (s.setV r b).getV q = if q = r then b else s.getV q := by
  simp only [State.getV, State.setV, Vector.getElem_set, Fin.ext_iff, eq_comm]

@[simp] theorem State.getV_setV_self (s : State) (r : Reg) (b : Byte) : (s.setV r b).getV r = b := by
  simp [State.getV_setV]

@[simp] theorem State.getV_setV_ne (s : State) (r q : Reg) (b : Byte) (h : q ≠ r) :
    (s.setV r b).getV q = s.getV q := by
  simp [State.getV_setV, h]

/-- Registers read alike are the same registers. -/
theorem State.v_ext (s t : State) (h : ∀ r, t.getV r = s.getV r) : t.v = s.v := by
  apply Vector.ext
  intro k hk
  exact h ⟨k, hk⟩

end Machine
end Sys2Proof
end

