-- ==== Sys2Proof/Laws/Memory.lean ====
section
/-! SUPPORT. The laws of memory: every operation keeps the canonical form, a write is read back, and leaves every
other address alone. -/

namespace Sys2Proof
namespace Machine

theorem phys_lt (a : Nat) : phys a < Config.memSize := Nat.mod_lt _ (by decide)

@[simp] theorem phys_phys (a : Nat) : phys (phys a) = phys a := Nat.mod_mod _ _

/-! ### The canonical form -/

theorem Memory.wfFrom_mono (m : Memory) {lo lo' : Nat} (hle : lo' ≤ lo) (h : Memory.wfFrom lo m = true) :
    Memory.wfFrom lo' m = true := by
  cases m with
  | nil => rfl
  | cons c m =>
    simp only [Memory.wfFrom, Bool.and_eq_true, decide_eq_true_eq] at h ⊢
    exact ⟨⟨⟨by omega, h.1.1.2⟩, h.1.2⟩, h.2⟩

theorem Memory.wfFrom_consCell (m : Memory) {lo a : Nat} (v : Byte) (hlo : lo ≤ a) (ha : a < Config.memSize)
    (h : Memory.wfFrom (a + 1) m = true) : Memory.wfFrom lo (Memory.consCell a v m) = true := by
  unfold Memory.consCell
  split
  · exact Memory.wfFrom_mono m (by omega) h
  · rename_i hv
    simp [Memory.wfFrom, hlo, ha, hv, h]

theorem Memory.wfFrom_write (m : Memory) {lo a : Nat} (v : Byte) (hlo : lo ≤ a) (ha : a < Config.memSize)
    (h : Memory.wfFrom lo m = true) : Memory.wfFrom lo (m.write a v) = true := by
  induction m generalizing lo with
  | nil => exact Memory.wfFrom_consCell [] v hlo ha rfl
  | cons c m ih =>
    obtain ⟨b, w⟩ := c
    simp only [Memory.wfFrom, Bool.and_eq_true, decide_eq_true_eq, bne_iff_ne] at h
    obtain ⟨⟨⟨hb, hbs⟩, hw⟩, hm⟩ := h
    simp only [Memory.write]
    split
    · exact Memory.wfFrom_consCell _ v hlo ha (by simp [Memory.wfFrom, hbs, hw, hm]; omega)
    · split
      · subst_vars
        exact Memory.wfFrom_consCell _ v hlo ha hm
      · simp only [Memory.wfFrom, Bool.and_eq_true, decide_eq_true_eq, bne_iff_ne]
        exact ⟨⟨⟨hb, hbs⟩, hw⟩, ih (by omega) hm⟩

/-- A write keeps the canonical form. -/
theorem Memory.wf_write (m : Memory) (a : Nat) (v : Byte) (h : m.wf = true) : (m.write (phys a) v).wf = true :=
  Memory.wfFrom_write m v (Nat.zero_le _) (phys_lt a) h

/-- A sequence of writes keeps the canonical form. -/
theorem Memory.wf_writeBytes (bs : List Byte) (m : Memory) (a : Nat) (h : m.wf = true) :
    (m.writeBytes a bs).wf = true := by
  induction bs generalizing m a with
  | nil => exact h
  | cons b bs ih => exact ih _ _ (Memory.wf_write m a b h)

theorem reset_mem_wf : State.reset.mem.wf = true := rfl

/-! ### Reading back -/

/-- An address below the canonical form's first is unlisted. -/
theorem Memory.read_of_lt (m : Memory) {lo a : Nat} (h : Memory.wfFrom lo m = true) (ha : a < lo) :
    m.read a = unlistedByte a := by
  induction m generalizing lo with
  | nil => rfl
  | cons c m ih =>
    obtain ⟨b, w⟩ := c
    simp only [Memory.wfFrom, Bool.and_eq_true, decide_eq_true_eq] at h
    simp only [Memory.read, if_neg (show a ≠ b by omega)]
    exact ih h.2 (by omega)

theorem Memory.read_consCell_ne (m : Memory) {a b : Nat} (v : Byte) (h : b ≠ a) :
    (Memory.consCell a v m).read b = m.read b := by
  unfold Memory.consCell
  split
  · rfl
  · simp [Memory.read, h]

/-- A write leaves every other address alone, whatever the memory's form. -/
theorem Memory.read_write_ne (m : Memory) {a b : Nat} (v : Byte) (h : b ≠ a) :
    (m.write a v).read b = m.read b := by
  induction m with
  | nil => exact Memory.read_consCell_ne [] v h
  | cons c m ih =>
    obtain ⟨d, w⟩ := c
    simp only [Memory.write]
    split
    · exact Memory.read_consCell_ne _ v h
    · split
      · subst_vars
        rw [Memory.read_consCell_ne m v h]
        simp [Memory.read, h]
      · simp only [Memory.read, ih]

theorem Memory.read_consCell_self (m : Memory) (a : Nat) (v : Byte) (h : m.read a = unlistedByte a) :
    (Memory.consCell a v m).read a = v := by
  unfold Memory.consCell
  split
  · rw [h]; symm; assumption
  · simp [Memory.read]

theorem Memory.read_write_self_from (m : Memory) {lo : Nat} (a : Nat) (v : Byte)
    (h : Memory.wfFrom lo m = true) : (m.write a v).read a = v := by
  induction m generalizing lo with
  | nil => exact Memory.read_consCell_self [] a v rfl
  | cons c m ih =>
    obtain ⟨b, w⟩ := c
    simp only [Memory.wfFrom, Bool.and_eq_true, decide_eq_true_eq, bne_iff_ne] at h
    obtain ⟨⟨⟨hb, hbs⟩, hw⟩, hm⟩ := h
    simp only [Memory.write]
    split
    · refine Memory.read_consCell_self _ a v (Memory.read_of_lt _ (lo := a + 1) ?_ (by omega))
      simp [Memory.wfFrom, hbs, hw, hm]
      omega
    · split
      · subst_vars
        exact Memory.read_consCell_self m _ v (Memory.read_of_lt m hm (by omega))
      · simp only [Memory.read]
        rw [if_neg (by assumption)]
        exact ih hm

/-- What is written is read back, in a memory in canonical form. -/
theorem Memory.read_write_self (m : Memory) (a : Nat) (v : Byte) (h : m.wf = true) : (m.write a v).read a = v :=
  Memory.read_write_self_from m a v h

/-- An address that no byte is written at keeps its byte. -/
theorem Memory.read_writeBytes_other (bs : List Byte) (m : Memory) (a b : Nat) (h : ∀ k, k < bs.length → b ≠ phys (a + k)) :
    (m.writeBytes a bs).read b = m.read b := by
  induction bs generalizing m a with
  | nil => rfl
  | cons c cs ih =>
    rw [Memory.writeBytes, ih]
    · exact Memory.read_write_ne _ _ (h 0 (by simp))
    · intro k hk; have := h (k+1) (by simp; omega); rwa [show a + 1 + k = a + (k+1) by omega]

/-- The bytes written are read back, where they do not wrap around. -/
theorem Memory.read_writeBytes_at (bs : List Byte) (m : Memory) (a k : Nat) (hw : m.wf = true) (hk : k < bs.length) (hb : a + bs.length ≤ 4096) :
    (m.writeBytes a bs).read (a + k) = bs[k] := by
  induction bs generalizing m a k with
  | nil => simp at hk
  | cons c cs ih =>
    simp only [List.length_cons] at hk hb
    rw [Memory.writeBytes]
    cases k with
    | zero =>
      rw [Memory.read_writeBytes_other]
      · have : phys a = a := by unfold phys Config.memSize; omega
        rw [this]; exact Memory.read_write_self _ _ _ hw
      · intro k hk; unfold phys Config.memSize; omega
    | succ k =>
      have := ih (m.write (phys a) c) (a+1) k (Memory.wf_write _ _ _ hw) (by omega) (by omega)
      rw [show a + (k+1) = a + 1 + k by omega, this]; rfl

/-! ### The same, on the state -/

/-- A write changes no byte at another physical address (20_memory.md R23). -/
theorem State.memRead_memWrite_ne (s : State) (a b : Nat) (v : Byte) (h : phys b ≠ phys a) :
    (s.memWrite a v).memRead b = s.memRead b := Memory.read_write_ne s.mem v h

/-- A byte written is read back at every address that reduces to the same one (20_memory.md R21, R30). -/
theorem State.memRead_memWrite_eq (s : State) (a b : Nat) (v : Byte) (hwf : s.mem.wf = true)
    (h : phys b = phys a) : (s.memWrite a v).memRead b = v := by
  unfold State.memRead
  rw [h]
  exact Memory.read_write_self s.mem (phys a) v hwf

theorem State.memWrite_wf (s : State) (a : Nat) (v : Byte) (h : s.mem.wf = true) : (s.memWrite a v).mem.wf = true :=
  Memory.wf_write s.mem a v h

end Machine
end Sys2Proof
end

