-- ==== Sys2Proof/Laws/Ops.lean ====
section
/-! SUPPORT. One lemma per shared operation that says once everything it can do. -/

namespace Sys2Proof
namespace Machine

/-! ### Control flow -/

theorem skipIf_eq (c : Bool) (s : State) : skipIf c s = s.setPc (if c then s.pc + 2 else s.pc) := by
  cases c <;> rfl

/-- A call pushes and jumps, or finds the stack full and only records it. -/
theorem callTo_cases (w : Word) (s : State) :
    (∃ room : s.sp.val < 16, callTo w s = (s.push s.pc room).setPc w) ∨
      (s.sp.val = 16 ∧ callTo w s = s.setOverflow) := by
  unfold callTo
  split
  · exact .inl ⟨‹_›, rfl⟩
  · exact .inr ⟨by have := s.sp.isLt; omega, rfl⟩

/-- A return pops, or finds the stack empty and only records it. -/
theorem returnFromCall_cases (s : State) :
    (∃ used : 0 < s.sp.val, returnFromCall s = s.dropTop.setPc (s.top used)) ∨
      (s.sp.val = 0 ∧ returnFromCall s = s.setUnderflow) := by
  unfold returnFromCall
  split
  · exact .inl ⟨‹_›, rfl⟩
  · exact .inr ⟨by omega, rfl⟩

/-! ### Flags -/

/-- Flag first, result last: in `VF` the result wins. -/
theorem writeFlagThenResult_getV (x q : Reg) (f b : Byte) (s : State) :
    (writeFlagThenResult x f b s).getV q = if q = x then b else if q = Reg.vf then f else s.getV q := by
  simp only [writeFlagThenResult, State.getV_setV]

/-- Only registers are written. -/
theorem writeFlagThenResult_frame (x : Reg) (f b : Byte) (s : State) :
    ∃ v, writeFlagThenResult x f b s = { s with v := v } := ⟨_, rfl⟩

/-! ### The keypad -/

/-- The least pressed key is pressed, and no lower key is. -/
theorem leastKey_some (k : Keys) (j : Reg) (h : leastKey k = some j) :
    k.getLsbD j.val = true ∧ ∀ i : Reg, i < j → k.getLsbD i.val = false := by
  revert h
  unfold leastKey
  intro h
  obtain ⟨hj, as, bs, hl, hall⟩ := List.find?_eq_some_iff_append.mp h
  refine ⟨hj, fun i hi => ?_⟩
  have hs : (List.finRange 16).Pairwise (· < ·) := by decide
  rw [hl] at hs
  have hmem : i ∈ List.finRange 16 := List.mem_finRange i
  rw [hl, List.mem_append, List.mem_cons] at hmem
  rcases hmem with hm | rfl | hm
  · simpa using hall i hm
  · exact absurd hi (lt_irrefl _)
  · rw [List.pairwise_append, List.pairwise_cons] at hs
    exact absurd (hs.2.1.1 i hm) (lt_asymm hi)

/-- No least key means no key at all. -/
theorem leastKey_none (k : Keys) (h : leastKey k = none) : ∀ j : Reg, k.getLsbD j.val = false := by
  intro j
  have := List.find?_eq_none.mp h j (List.mem_finRange j)
  simpa using this

/-- `FX0A` takes the least pressed key, or rewinds and reports that it waits. -/
theorem takeKey_cases (x : Reg) (s : State) :
    (∃ k, leastKey s.key = some k ∧ takeKey x s = s.setV x (byteOfKey k)) ∨
      (leastKey s.key = none ∧ takeKey x s = (rewind s).setStepStatus .awaitingKey) := by
  unfold takeKey
  cases h : leastKey s.key with
  | none => exact .inr ⟨rfl, rfl⟩
  | some k => exact .inl ⟨k, rfl, rfl⟩

/-! ### Transfers -/

/-- Storing registers changes memory only, and keeps its form. -/
theorem storeFirst_frame (n : Nat) (s : State) :
    ∃ m, storeFirst n s = { s with mem := m } ∧ (s.mem.wf = true → m.wf = true) := by
  induction n with
  | zero => exact ⟨s.mem, rfl, id⟩
  | succ k ih =>
    obtain ⟨m, hm, hwf⟩ := ih
    exact ⟨_, by rw [storeFirst, hm]; rfl, fun h => Memory.wf_write m _ _ (hwf h)⟩

/-- A byte that no store reaches keeps its value. -/
theorem storeFirst_memRead_other (n : Nat) (s : State) (a : Nat)
    (h : ∀ k, k < n → phys a ≠ phys (indexAddr s k)) : (storeFirst n s).memRead a = s.memRead a := by
  induction n with
  | zero => rfl
  | succ k ih =>
    rw [storeFirst, State.memRead_memWrite_ne _ _ _ _ (h k (by omega))]
    exact ih fun j hj => h j (by omega)

/-- The bytes stored, up to 16 at distinct addresses, hold the registers. -/
theorem storeFirst_memRead (n : Nat) (s : State) (k : Nat) (hk : k < n) (hn : n ≤ 16) (hwf : s.mem.wf = true) :
    (storeFirst n s).memRead (indexAddr s k) = s.getV (Fin.ofNat 16 k) := by
  induction n with
  | zero => omega
  | succ j ih =>
    obtain ⟨m, hm, hmwf⟩ := storeFirst_frame j s
    rw [storeFirst]
    by_cases hjk : k = j
    · subst hjk
      exact State.memRead_memWrite_eq _ _ _ _ (by rw [hm]; exact hmwf hwf) rfl
    · rw [State.memRead_memWrite_ne]
      · exact ih (by omega) (by omega)
      · simp only [phys, indexAddr, Config.memSize]
        omega

/-- Loading registers changes registers only. -/
theorem loadFirst_frame (n : Nat) (s : State) : ∃ v, loadFirst n s = { s with v := v } := by
  induction n with
  | zero => exact ⟨s.v, rfl⟩
  | succ k ih =>
    obtain ⟨v, hv⟩ := ih
    exact ⟨_, by rw [loadFirst, hv]; rfl⟩

/-- Each register below the count holds the byte at its address; the others are unchanged. -/
theorem loadFirst_getV (n : Nat) (s : State) (q : Reg) (hn : n ≤ 16) :
    (loadFirst n s).getV q = if q.val < n then s.memRead (indexAddr s q.val) else s.getV q := by
  induction n with
  | zero => rfl
  | succ k ih =>
    have hk : (Fin.ofNat 16 k).val = k := Nat.mod_eq_of_lt (by omega)
    rw [loadFirst, State.getV_setV, ih (by omega)]
    by_cases hq : q = Fin.ofNat 16 k
    · have : q.val = k := by rw [hq, hk]
      rw [if_pos hq, if_pos (by omega), this]
    · have : q.val ≠ k := fun h => hq (Fin.ext (by rw [hk]; exact h))
      rw [if_neg hq]
      by_cases hlt : q.val < k
      · rw [if_pos hlt, if_pos (by omega)]
      · rw [if_neg hlt, if_neg (by omega)]

/-- Storing the digits changes memory only, and keeps its form. -/
theorem storeDigits_frame (b : Byte) (s : State) :
    ∃ m, storeDigits b s = { s with mem := m } ∧ (s.mem.wf = true → m.wf = true) :=
  ⟨_, rfl, fun h => Memory.wf_write _ _ _ (Memory.wf_write _ _ _ (Memory.wf_write _ _ _ h))⟩

/-- A byte that no digit reaches keeps its value. -/
theorem storeDigits_memRead_other (b : Byte) (s : State) (a : Nat)
    (h : ∀ k, k < 3 → phys a ≠ phys (indexAddr s k)) : (storeDigits b s).memRead a = s.memRead a := by
  unfold storeDigits
  rw [State.memRead_memWrite_ne _ _ _ _ (h 2 (by omega)), State.memRead_memWrite_ne _ _ _ _ (h 1 (by omega)),
    State.memRead_memWrite_ne _ _ _ _ (h 0 (by omega))]

/-- The digits stored read back as decimal digits. -/
theorem digits_toNat (b : Byte) :
    (hundreds b).toNat = b.toNat / 100 ∧ (tens b).toNat = b.toNat / 10 % 10 ∧ (ones b).toNat = b.toNat % 10 := by
  revert b
  decide

/-! ### The display -/

theorem Display.pixel_clear (px py : Nat) : Display.clear.pixel px py = false := by
  unfold Display.pixel Display.clear
  by_cases h : py < 32
  · simp [h]
  · simp [h]

/-- Inverting a pixel inverts that pixel and no other. -/
theorem Display.pixel_toggle (d : Display) (px py qx qy : Nat) (hx : px < 64) (hy : py < 32) :
    (d.toggle px py).pixel qx qy = (d.pixel qx qy != decide (qx = px ∧ qy = py)) := by
  unfold Display.pixel Display.toggle
  by_cases h : qy = py
  · subst h
    rw [Vector.getElem?_setIfInBounds]
    simp only [if_pos hy, ↓reduceIte, Option.getD_some, BitVec.getLsbD_xor, BitVec.getLsbD_twoPow]
    by_cases hq : qx = px
    · subst hq
      simp [hx]
    · have : ¬ px = qx := fun e => hq e.symm
      simp [hq, this]
  · rw [Vector.getElem?_setIfInBounds]
    simp only [if_neg (show ¬ py = qy from fun e => h e.symm), h, and_false, decide_false, Bool.bne_false]

/-- Displays whose pixels are alike are the same display. -/
theorem Display.ext_pixel (d e : Display) (h : ∀ px py, px < 64 → py < 32 → d.pixel px py = e.pixel px py) :
    d = e := by
  apply Vector.ext
  intro y hy
  apply BitVec.eq_of_getLsbD_eq
  intro x hx
  simpa [Display.pixel, hy] using h x y hx hy

/-! ### The step -/

theorem beginStep_eq (r : Byte) (s : State) :
    beginStep r s = { s with pc := s.pc + 2, port := { s.port with rand := r, stepStatus := .done } } := rfl

end Machine
end Sys2Proof
end

