-- ==== Sys2Proof/Laws/Commands.lean ====
section
/-! SUPPORT. What each host command, a sequence of them and a step of the machine can do. -/

namespace Sys2Proof
namespace Machine

/-- The size limit of an image as a number (70_reset_and_hazards.md R100). -/
theorem imageFits_iff (image : List Byte) : imageFits image = true ↔ image.length ≤ 3584 := by
  unfold imageFits
  rw [decide_eq_true_iff]
  rfl

/-- A tick takes one from a timer that is not 0 (60_exceptions.md R89). -/
theorem countdown_toNat (t : Byte) : (countdown t).toNat = t.toNat - 1 := by
  revert t
  decide

/-- A `step` that answers a next state ran an instruction, or nothing for an unrecognized opcode. -/
theorem cmdStep_cases (r : Byte) (s t : State) (h : cmdStep r s = .next t) :
    (∃ i, decode (fetchOpcode s) = .instr i ∧ exec i (beginStep r s) = .next t) ∨
      (∃ why, decode (fetchOpcode s) = .unrecognized why ∧ t = beginStep r s) := by
  unfold cmdStep at h
  split at h
  · cases h
  · unfold stepOnce execDecoded at h
    split at h
    · exact .inl ⟨_, ‹_›, h⟩
    · cases h
      exact .inr ⟨_, ‹_›, rfl⟩

/-- With no failed load a `step` is the instruction's execution. -/
theorem cmdStep_instr (r : Byte) (s : State) (i : Instr) (hd : decode (fetchOpcode s) = .instr i)
    (hl : s.port.loadStatus ≠ .loadFailure) : cmdStep r s = exec i (beginStep r s) := by
  simp only [cmdStep, hl, if_false, stepOnce, hd, execDecoded]

/-- With no failed load a `step` of an unrecognized opcode is the fetch alone. -/
theorem cmdStep_unrecognized (r : Byte) (s : State) (why : Unrecognized)
    (hd : decode (fetchOpcode s) = .unrecognized why) (hl : s.port.loadStatus ≠ .loadFailure) :
    cmdStep r s = .next (beginStep r s) := by
  simp only [cmdStep, hl, if_false, stepOnce, hd, execDecoded, execUnrecognized]

/-- A load that fits writes the image and reports it; one that does not only reports it. -/
theorem cmdLoad_cases (image : List Byte) (s : State) :
    (image.length ≤ 3584 ∧ cmdLoad image s
      = ({ s with mem := s.mem.writeBytes Config.entry image }).setLoadStatus .loaded) ∨
      (3584 < image.length ∧ cmdLoad image s = s.setLoadStatus .loadFailure) := by
  unfold cmdLoad
  by_cases h : imageFits image = true
  · exact .inl ⟨(imageFits_iff image).mp h, if_pos h⟩
  · exact .inr ⟨by rw [imageFits_iff] at h; omega, if_neg h⟩

/-- Taking a command touches the ports only: the pending list, or the count of free random bytes. -/
theorem takeCommand_cases (s : State) :
    (s.port.pending = [] ∧ takeCommand s = s.countDraw) ∨
      (∃ c cs, s.port.pending = c :: cs ∧ takeCommand s = s.setPending cs) := by
  unfold takeCommand
  cases h : s.port.pending with
  | nil => exact .inl ⟨rfl, rfl⟩
  | cons c cs => exact .inr ⟨c, cs, rfl, rfl⟩

@[simp] theorem takeCommand_mem (s : State) : (takeCommand s).mem = s.mem := by
  unfold takeCommand
  split <;> rfl

@[simp] theorem takeCommand_loadStatus (s : State) : (takeCommand s).port.loadStatus = s.port.loadStatus := by
  unfold takeCommand
  split <;> rfl

@[simp] theorem takeCommand_stackOverflow (s : State) : (takeCommand s).stackOverflow = s.stackOverflow := by
  unfold takeCommand
  split <;> rfl

@[simp] theorem takeCommand_stackUnderflow (s : State) : (takeCommand s).stackUnderflow = s.stackUnderflow := by
  unfold takeCommand
  split <;> rfl

theorem runCommands_cons_next (c : Command) (cs : List Command) (s t : State) (h : applyCommand c s = .next t) :
    runCommands (c :: cs) s = runCommands cs t := by
  rw [runCommands, h]

/-- A run of two sequences passes through the end of the first. -/
theorem runCommands_append_next (cs ds : List Command) (s t : State) (h : runCommands (cs ++ ds) s = .next t) :
    ∃ u, runCommands cs s = .next u ∧ runCommands ds u = .next t := by
  induction cs generalizing s with
  | nil => exact ⟨s, rfl, h⟩
  | cons c cs ih =>
    simp only [List.cons_append, runCommands] at h ⊢
    cases ha : applyCommand c s <;> rw [ha] at h <;> simp at h
    exact ih _ h

end Machine
end Sys2Proof
end

