-- ==== Sys2Proof/Laws/Draw.lean ====
section
/-! SUPPORT. What drawing does, pixel by pixel (43_display.md R77). -/

namespace Sys2Proof
namespace Machine

/-- Whether the first `n` bits of a sprite row that starts at column `x0` set the pixel at column `px`. -/
def rowBit (row : Byte) (x0 n px : Nat) : Bool :=
  decide (x0 ≤ px) && decide (px < x0 + n) && row.getLsbD (7 - (px - x0))

/-- The display's edges as numbers (00_scope.md R4). -/
theorem onScreen_iff (px py : Nat) : onScreen px py = true ↔ px < 64 ∧ py < 32 := by
  unfold onScreen; rw [Bool.and_eq_true, decide_eq_true_iff, decide_eq_true_iff]; rfl

/-- Drawing `n` bits of a row inverts exactly the pixels those bits cover, and adds a collision for each that was
set. -/
theorem blitBits_spec (row : Byte) (x0 py n : Nat) (b : Blit) :
    (∀ qx qy, qx < 64 → qy < 32 → (blitBits row x0 py n b).1.pixel qx qy
        = (b.1.pixel qx qy ^^ (decide (qy = py) && rowBit row x0 n qx)))
    ∧ ((blitBits row x0 py n b).2 = true ↔
        b.2 = true ∨ ∃ qx, qx < 64 ∧ py < 32 ∧ rowBit row x0 n qx = true ∧ b.1.pixel qx py = true) := by
  induction n with
  | zero =>
    have : ∀ q, rowBit row x0 0 q = false := by intro q; simp [rowBit]
    simp [blitBits, this]
  | succ c ih =>
    obtain ⟨ih1, ih2⟩ := ih
    have hsucc : ∀ q, rowBit row x0 (c + 1) q
        = (rowBit row x0 c q || (decide (q = x0 + c) && row.getLsbD (7 - c))) := by
      intro q
      unfold rowBit
      by_cases h : q = x0 + c
      · subst h; simp
      · have : (decide (x0 ≤ q) && decide (q < x0 + (c + 1)))
            = (decide (x0 ≤ q) && decide (q < x0 + c)) := by
          by_cases h1 : x0 ≤ q <;> simp [h1]; omega
        rw [this]; simp [h]
    have hc0 : rowBit row x0 c (x0 + c) = false := by simp [rowBit]
    simp only [blitBits, blitBit]
    by_cases hb : row.getLsbD (7 - c) = true
    · by_cases hs : x0 + c < 64 ∧ py < 32
      · have hon : onScreen (x0 + c) py = true := by simp [onScreen, Config.width, Config.height, hs]
        rw [if_pos (by simp [hb, hon])]
        refine ⟨fun qx qy hx hy => ?_, ?_⟩
        · simp only
          rw [Display.pixel_toggle _ _ _ _ _ hs.1 hs.2, ih1 qx qy hx hy, hsucc]
          by_cases h1 : qx = x0 + c
          · subst h1
            by_cases h2 : qy = py <;> simp [h2, hb, hc0]
          · simp [h1]
        · simp only [Bool.or_eq_true, ih2]
          rw [ih1 _ _ hs.1 hs.2]
          simp only [hc0, Bool.and_false, Bool.xor_false]
          constructor
          · rintro ((h | ⟨q, h1, h2, h3, h4⟩) | h)
            · exact .inl h
            · exact .inr ⟨q, h1, h2, by rw [hsucc, h3]; rfl, h4⟩
            · exact .inr ⟨x0 + c, hs.1, hs.2, by rw [hsucc]; simp [hb], h⟩
          · rintro (h | ⟨q, h1, h2, h3, h4⟩)
            · exact .inl (.inl h)
            · rw [hsucc] at h3
              by_cases hq : q = x0 + c
              · subst hq; exact .inr h4
              · simp [hq] at h3; exact .inl (.inr ⟨q, h1, h2, h3, h4⟩)
      · have hon : onScreen (x0 + c) py = false := by
          rw [Bool.eq_false_iff, ne_eq, onScreen_iff]; exact hs
        rw [if_neg (by simp [hon])]
        refine ⟨fun qx qy hx hy => ?_, ?_⟩
        · rw [ih1 qx qy hx hy, hsucc]
          by_cases h1 : qx = x0 + c
          · by_cases h2 : qy = py
            · omega
            · simp [h2]
          · simp [h1]
        · rw [ih2]
          constructor
          · rintro (h | ⟨q, h1, h2, h3, h4⟩)
            · exact .inl h
            · exact .inr ⟨q, h1, h2, by rw [hsucc, h3]; rfl, h4⟩
          · rintro (h | ⟨q, h1, h2, h3, h4⟩)
            · exact .inl h
            · rw [hsucc] at h3
              by_cases hq : q = x0 + c
              · omega
              · simp [hq] at h3; exact .inr ⟨q, h1, h2, h3, h4⟩
    · rw [if_neg (by simp [hb])]
      have hs' : ∀ q, rowBit row x0 (c + 1) q = rowBit row x0 c q := by intro q; rw [hsucc]; simp [hb]
      simp only [hs']
      exact ⟨ih1, ih2⟩

/-- Drawing `n` rows of a sprite inverts exactly the pixels they cover, and adds a collision for each that was set. -/
theorem blitRows_spec (s : State) (x0 y0 n : Nat) (b : Blit) :
    (∀ qx qy, qx < 64 → qy < 32 → (blitRows s x0 y0 n b).1.pixel qx qy
        = (b.1.pixel qx qy
          ^^ (decide (y0 ≤ qy) && decide (qy < y0 + n) && rowBit (s.memRead (indexAddr s (qy - y0))) x0 8 qx)))
    ∧ ((blitRows s x0 y0 n b).2 = true ↔ b.2 = true ∨ ∃ qx qy, qx < 64 ∧ qy < 32
        ∧ (decide (y0 ≤ qy) && decide (qy < y0 + n) && rowBit (s.memRead (indexAddr s (qy - y0))) x0 8 qx) = true
        ∧ b.1.pixel qx qy = true) := by
  induction n with
  | zero =>
    have : ∀ q, (decide (y0 ≤ q) && decide (q < y0 + 0)) = false := by intro q; simp
    simp only [blitRows, this]; simp
  | succ r ih =>
    obtain ⟨ih1, ih2⟩ := ih
    obtain ⟨h1, h2⟩ := blitBits_spec (s.memRead (indexAddr s r)) x0 (y0 + r) 8 (blitRows s x0 y0 r b)
    have hsucc : ∀ q, (decide (y0 ≤ q) && decide (q < y0 + (r + 1)))
        = ((decide (y0 ≤ q) && decide (q < y0 + r)) || decide (q = y0 + r)) := by
      intro q
      by_cases h : q = y0 + r
      · subst h; simp
      · by_cases h1 : y0 ≤ q <;> simp [h1, h]; omega
    simp only [blitRows]
    refine ⟨fun qx qy hx hy => ?_, ?_⟩
    · rw [h1 qx qy hx hy, ih1 qx qy hx hy, hsucc]
      by_cases h : qy = y0 + r
      · subst h; simp
      · simp [h]
    · rw [h2, ih2]
      constructor
      · rintro ((h | ⟨qx, qy, a1, a2, a3, a4⟩) | ⟨qx, a1, a2, a3, a4⟩)
        · exact .inl h
        · refine .inr ⟨qx, qy, a1, a2, ?_, a4⟩
          rw [hsucc]; simp only [Bool.and_eq_true, Bool.or_eq_true] at a3 ⊢; exact ⟨.inl a3.1, a3.2⟩
        · refine .inr ⟨qx, y0 + r, a1, a2, ?_, ?_⟩
          · rw [hsucc]; simp [a3]
          · rw [ih1 _ _ a1 a2] at a4; simpa using a4
      · rintro (h | ⟨qx, qy, a1, a2, a3, a4⟩)
        · exact .inl (.inl h)
        · rw [hsucc] at a3
          by_cases h : qy = y0 + r
          · subst h
            right; refine ⟨qx, a1, a2, by simpa using a3, ?_⟩
            rw [ih1 _ _ a1 a2]; simpa using a4
          · simp only [h, decide_false, Bool.or_false] at a3
            exact .inl (.inr ⟨qx, qy, a1, a2, a3, a4⟩)

/-- The picture of the sprite, row by row. -/
theorem spriteBit_eq (s : State) (x y : Reg) (n : Nibble) (px py : Nat) :
    (decide ((s.getV y).toNat % 32 ≤ py) && decide (py < (s.getV y).toNat % 32 + n.toNat)
        && rowBit (s.memRead (indexAddr s (py - (s.getV y).toNat % 32))) ((s.getV x).toNat % 64) 8 px)
      = spriteBit s x y n px py := by
  unfold spriteBit rowBit indexAddr
  ac_rfl

/-- What is drawn depends on the sprite's bytes only, not on where they were read. -/
theorem blitRows_congr (s s' : State) (x0 y0 n : Nat) (b : Blit)
    (h : ∀ k, s.memRead (indexAddr s k) = s'.memRead (indexAddr s' k)) :
    blitRows s x0 y0 n b = blitRows s' x0 y0 n b := by
  induction n with
  | zero => rfl
  | succ r ih => simp only [blitRows, ih, h]

end Machine
end Sys2Proof
end

