-- ==== Sys2Proof/Laws/Encoding.lean ====
section
/-! SUPPORT. The fields of an opcode built from fields, and its examined bits. -/

namespace Sys2Proof

/-! ### Examined bits of the three formats -/

theorem wordXYN_and_class (c : Nibble) (x y : Reg) (n : Nibble) :
    wordXYN c x y n &&& 0xF000 = wordXYN c 0 0 0 := by
  apply BitVec.eq_of_getLsbD_eq
  intro i hi
  interval_cases i <;> simp [wordXYN]

theorem wordXYN_and_arithmetic (c : Nibble) (x y : Reg) (n : Nibble) :
    wordXYN c x y n &&& 0xF00F = wordXYN c 0 0 n := by
  apply BitVec.eq_of_getLsbD_eq
  intro i hi
  interval_cases i <;> simp [wordXYN]

theorem wordXNN_and_byte (c : Nibble) (x : Reg) (nn : Byte) :
    wordXNN c x nn &&& 0xF0FF = wordXNN c 0 nn := by
  apply BitVec.eq_of_getLsbD_eq
  intro i hi
  interval_cases i <;> simp [wordXNN]

theorem wordXNN_and_class (c : Nibble) (x : Reg) (nn : Byte) : wordXNN c x nn &&& 0xF000 = wordXYN c 0 0 0 := by
  apply BitVec.eq_of_getLsbD_eq
  intro i hi
  interval_cases i <;> simp [wordXNN, wordXYN]

theorem wordNNN_and_class (c : Nibble) (a : Addr12) : wordNNN c a &&& 0xF000 = wordXYN c 0 0 0 := by
  apply BitVec.eq_of_getLsbD_eq
  intro i hi
  interval_cases i <;> simp [wordNNN, wordXYN]

/-! ### The fields of an opcode built from fields (30_encoding.md R34) -/

theorem decodeRecord_wordXYN (c : Nibble) (x y : Reg) (n : Nibble) :
    (decodeRecord (wordXYN c x y n)).cls = c ∧ (decodeRecord (wordXYN c x y n)).x = x
      ∧ (decodeRecord (wordXYN c x y n)).y = y ∧ (decodeRecord (wordXYN c x y n)).n = n := by
  have h1 : (wordXYN c x y n).extractLsb' 12 4 = c := by
    apply BitVec.eq_of_getLsbD_eq; intro i hi; interval_cases i <;> simp [wordXYN]
  have h2 : (wordXYN c x y n).extractLsb' 8 4 = BitVec.ofFin x := by
    apply BitVec.eq_of_getLsbD_eq; intro i hi; interval_cases i <;> simp [wordXYN]
  have h3 : (wordXYN c x y n).extractLsb' 4 4 = BitVec.ofFin y := by
    apply BitVec.eq_of_getLsbD_eq; intro i hi; interval_cases i <;> simp [wordXYN]
  have h4 : (wordXYN c x y n).extractLsb' 0 4 = n := by
    apply BitVec.eq_of_getLsbD_eq; intro i hi; interval_cases i <;> simp [wordXYN]
  simp only [decodeRecord, h1, h2, h3, h4, and_self]

theorem decodeRecord_wordXNN (c : Nibble) (x : Reg) (nn : Byte) :
    (decodeRecord (wordXNN c x nn)).cls = c ∧ (decodeRecord (wordXNN c x nn)).x = x
      ∧ (decodeRecord (wordXNN c x nn)).nn = nn := by
  have h1 : (wordXNN c x nn).extractLsb' 12 4 = c := by
    apply BitVec.eq_of_getLsbD_eq; intro i hi; interval_cases i <;> simp [wordXNN]
  have h2 : (wordXNN c x nn).extractLsb' 8 4 = BitVec.ofFin x := by
    apply BitVec.eq_of_getLsbD_eq; intro i hi; interval_cases i <;> simp [wordXNN]
  have h3 : (wordXNN c x nn).extractLsb' 0 8 = nn := by
    apply BitVec.eq_of_getLsbD_eq; intro i hi; interval_cases i <;> simp [wordXNN]
  simp only [decodeRecord, h1, h2, h3, and_self]

theorem decodeRecord_wordNNN (c : Nibble) (a : Addr12) :
    (decodeRecord (wordNNN c a)).cls = c ∧ (decodeRecord (wordNNN c a)).nnn = a := by
  have h1 : (wordNNN c a).extractLsb' 12 4 = c := by
    apply BitVec.eq_of_getLsbD_eq; intro i hi; interval_cases i <;> simp [wordNNN]
  have h3 : (wordNNN c a).extractLsb' 0 12 = a := by
    apply BitVec.eq_of_getLsbD_eq; intro i hi; interval_cases i <;> simp [wordNNN]
  simp only [decodeRecord, h1, h3, and_self]

/-! ### Opcodes as numbers -/

theorem wordNNN_eq_ofNat (c : Nibble) (a : Addr12) : wordNNN c a = BitVec.ofNat 16 (4096 * c.toNat + a.toNat) := by
  have hc := c.isLt
  have ha := a.isLt
  apply BitVec.eq_of_toNat_eq
  simp only [wordNNN, BitVec.toNat_or, BitVec.toNat_shiftLeft, BitVec.toNat_setWidth, BitVec.toNat_ofNat]
  rw [Nat.mod_eq_of_lt (show c.toNat < 2 ^ 16 by omega), Nat.mod_eq_of_lt (show a.toNat < 2 ^ 16 by omega),
    Nat.shiftLeft_eq, Nat.mod_eq_of_lt (by omega), ← Nat.shiftLeft_eq, ← Nat.shiftLeft_add_eq_or_of_lt (by omega),
    Nat.shiftLeft_eq]
  omega

theorem wordXNN_eq_ofNat (c : Nibble) (x : Reg) (nn : Byte) :
    wordXNN c x nn = BitVec.ofNat 16 (4096 * c.toNat + 256 * x.val + nn.toNat) := by
  have hc := c.isLt
  have hx := x.isLt
  have hn := nn.isLt
  apply BitVec.eq_of_toNat_eq
  simp only [wordXNN, BitVec.toNat_or, BitVec.toNat_shiftLeft, BitVec.toNat_setWidth, BitVec.toNat_ofNat,
    BitVec.toNat_ofFin]
  rw [Nat.mod_eq_of_lt (show c.toNat < 2 ^ 16 by omega), Nat.mod_eq_of_lt (show nn.toNat < 2 ^ 16 by omega),
    Nat.mod_eq_of_lt (show x.val < 2 ^ 16 by omega),
    Nat.mod_eq_of_lt (show c.toNat <<< 12 < 2 ^ 16 by rw [Nat.shiftLeft_eq]; omega),
    Nat.mod_eq_of_lt (show x.val <<< 8 < 2 ^ 16 by rw [Nat.shiftLeft_eq]; omega),
    ← Nat.shiftLeft_add_eq_or_of_lt (show x.val <<< 8 < 2 ^ 12 by rw [Nat.shiftLeft_eq]; omega),
    show c.toNat <<< 12 + x.val <<< 8 = (c.toNat * 16 + x.val) <<< 8 by simp only [Nat.shiftLeft_eq]; omega,
    ← Nat.shiftLeft_add_eq_or_of_lt (by omega), Nat.shiftLeft_eq]
  omega

/-! ### The opcode of two bytes (20_memory.md R24) -/

theorem opcodeOf_toNat (h l : Byte) : (opcodeOf h l).toNat = 256 * h.toNat + l.toNat := by
  have hh := h.isLt
  have hl := l.isLt
  simp only [opcodeOf, BitVec.toNat_or, BitVec.toNat_shiftLeft, BitVec.toNat_setWidth]
  rw [Nat.mod_eq_of_lt (show h.toNat < 2 ^ 16 by omega), Nat.mod_eq_of_lt (show l.toNat < 2 ^ 16 by omega),
    Nat.shiftLeft_eq, Nat.mod_eq_of_lt (by omega), ← Nat.shiftLeft_eq,
    ← Nat.shiftLeft_add_eq_or_of_lt (by omega), Nat.shiftLeft_eq]
  omega

end Sys2Proof
end

