-- ==== Sys2Proof/Laws/Frame.lean ====
section
/-! SUPPORT. How `ChangesOnly` is shown: for no change, for more changes, for changes in sequence, and for each
kind of update. -/

namespace Sys2Proof
namespace Machine

theorem ChangesOnly.refl (P : Field → Prop) (s : State) : ChangesOnly P s s := by
  intro f _
  cases f <;> rfl

theorem ChangesOnly.mono {P Q : Field → Prop} {s t : State} (hPQ : ∀ f, P f → Q f) (h : ChangesOnly P s t) :
    ChangesOnly Q s t := fun f hf => h f fun hp => hf (hPQ f hp)

theorem ChangesOnly.trans {P : Field → Prop} {s t u : State} (h : ChangesOnly P s t) (k : ChangesOnly P t u) :
    ChangesOnly P s u := by
  intro f hf
  have h1 := h f hf
  have h2 := k f hf
  cases f <;> exact Eq.trans h2 h1

theorem changesOnly_setPc (s : State) (w : Word) : ChangesOnly (fun f => f = .pc) s (s.setPc w) := by
  intro f hf
  cases f <;> first | exact absurd rfl hf | rfl

theorem changesOnly_setI (s : State) (w : Word) : ChangesOnly (fun f => f = .index) s (s.setI w) := by
  intro f hf
  cases f <;> first | exact absurd rfl hf | rfl

theorem changesOnly_setV (s : State) (x : Reg) (b : Byte) : ChangesOnly (fun f => f = .reg x) s (s.setV x b) := by
  intro f hf
  cases f <;> try rfl
  case reg r => exact State.getV_setV_ne s x r b (fun h => hf (by rw [h]))

/-- A flag and a result change the destination and `VF` (41_alu.md R56). -/
theorem changesOnly_writeFlagThenResult (s : State) (x : Reg) (f b : Byte) :
    ChangesOnly (fun q => q = .reg x ∨ q = .reg Reg.vf) s (writeFlagThenResult x f b s) := by
  intro q hq
  cases q <;> try rfl
  case reg r =>
    simp only [Field.reg.injEq, not_or] at hq
    simp only [Field.same, writeFlagThenResult_getV, hq.1, if_false, hq.2]

/-- A change of memory changes the bytes that read differently. -/
theorem changesOnly_mem (P : Field → Prop) (s : State) (m : Memory)
    (h : ∀ a, ¬ P (.byte a) → m.read (phys a) = s.memRead a) : ChangesOnly P s { s with mem := m } := by
  intro f hf
  cases f <;> try rfl
  exact h _ hf

/-- A change of the registers changes those that hold another byte. -/
theorem changesOnly_v (P : Field → Prop) (s : State) (v : Vector Byte 16)
    (h : ∀ r : Reg, ¬ P (.reg r) → v[r.val] = s.getV r) : ChangesOnly P s { s with v := v } := by
  intro f hf
  cases f <;> try rfl
  exact h _ hf

end Machine
end Sys2Proof
end

