-- ==== Sys2Proof/Laws/PerInstr.lean ====
section
/-! SUPPORT. Per instruction: the encoder agrees with the opcode table. Each instruction's row is in the table, and
its opcode has the row's examined bits, whatever its operands. -/

namespace Sys2Proof

/-- The instruction's row is in `opcodeTable`, and the instruction's opcode fits it (30_encoding.md R39). -/
def Laws.TableRow.Statement (i : Instr) : Prop := tableRow i ∈ opcodeTable ∧ (tableRow i).fits (encode i) = true

theorem Laws.TableRow.of_and (i : Instr) (hmem : tableRow i ∈ opcodeTable)
    (h : encode i &&& (tableRow i).mask = (tableRow i).pattern) : Laws.TableRow.Statement i :=
  ⟨hmem, by simp only [OpcodeRow.fits, h, beq_self_eq_true]⟩

theorem Laws.TableRow.cls : Laws.TableRow.Statement (.cls) :=
  Laws.TableRow.of_and _ (by simp [tableRow, opcodeTable, opcodeTableLow, opcodeTableHigh]) ((wordXNN_and_byte _ _ _).trans rfl)

theorem Laws.TableRow.ret : Laws.TableRow.Statement (.ret) :=
  Laws.TableRow.of_and _ (by simp [tableRow, opcodeTable, opcodeTableLow, opcodeTableHigh]) ((wordXNN_and_byte _ _ _).trans rfl)

theorem Laws.TableRow.jp (nnn : Addr12) : Laws.TableRow.Statement (.jp nnn) :=
  Laws.TableRow.of_and _ (by simp [tableRow, opcodeTable, opcodeTableLow, opcodeTableHigh]) ((wordNNN_and_class _ _).trans rfl)

theorem Laws.TableRow.call (nnn : Addr12) : Laws.TableRow.Statement (.call nnn) :=
  Laws.TableRow.of_and _ (by simp [tableRow, opcodeTable, opcodeTableLow, opcodeTableHigh]) ((wordNNN_and_class _ _).trans rfl)

theorem Laws.TableRow.seByte (x : Reg) (nn : Byte) : Laws.TableRow.Statement (.seByte x nn) :=
  Laws.TableRow.of_and _ (by simp [tableRow, opcodeTable, opcodeTableLow, opcodeTableHigh]) ((wordXNN_and_class _ _ _).trans rfl)

theorem Laws.TableRow.sneByte (x : Reg) (nn : Byte) : Laws.TableRow.Statement (.sneByte x nn) :=
  Laws.TableRow.of_and _ (by simp [tableRow, opcodeTable, opcodeTableLow, opcodeTableHigh]) ((wordXNN_and_class _ _ _).trans rfl)

theorem Laws.TableRow.seReg (x : Reg) (y : Reg) : Laws.TableRow.Statement (.seReg x y) :=
  Laws.TableRow.of_and _ (by simp [tableRow, opcodeTable, opcodeTableLow, opcodeTableHigh]) ((wordXYN_and_class _ _ _ _).trans rfl)

theorem Laws.TableRow.ldByte (x : Reg) (nn : Byte) : Laws.TableRow.Statement (.ldByte x nn) :=
  Laws.TableRow.of_and _ (by simp [tableRow, opcodeTable, opcodeTableLow, opcodeTableHigh]) ((wordXNN_and_class _ _ _).trans rfl)

theorem Laws.TableRow.addByte (x : Reg) (nn : Byte) : Laws.TableRow.Statement (.addByte x nn) :=
  Laws.TableRow.of_and _ (by simp [tableRow, opcodeTable, opcodeTableLow, opcodeTableHigh]) ((wordXNN_and_class _ _ _).trans rfl)

theorem Laws.TableRow.ldReg (x : Reg) (y : Reg) : Laws.TableRow.Statement (.ldReg x y) :=
  Laws.TableRow.of_and _ (by simp [tableRow, opcodeTable, opcodeTableLow, opcodeTableHigh]) ((wordXYN_and_arithmetic _ _ _ _).trans rfl)

theorem Laws.TableRow.orReg (x : Reg) (y : Reg) : Laws.TableRow.Statement (.orReg x y) :=
  Laws.TableRow.of_and _ (by simp [tableRow, opcodeTable, opcodeTableLow, opcodeTableHigh]) ((wordXYN_and_arithmetic _ _ _ _).trans rfl)

theorem Laws.TableRow.andReg (x : Reg) (y : Reg) : Laws.TableRow.Statement (.andReg x y) :=
  Laws.TableRow.of_and _ (by simp [tableRow, opcodeTable, opcodeTableLow, opcodeTableHigh]) ((wordXYN_and_arithmetic _ _ _ _).trans rfl)

theorem Laws.TableRow.xorReg (x : Reg) (y : Reg) : Laws.TableRow.Statement (.xorReg x y) :=
  Laws.TableRow.of_and _ (by simp [tableRow, opcodeTable, opcodeTableLow, opcodeTableHigh]) ((wordXYN_and_arithmetic _ _ _ _).trans rfl)

theorem Laws.TableRow.addReg (x : Reg) (y : Reg) : Laws.TableRow.Statement (.addReg x y) :=
  Laws.TableRow.of_and _ (by simp [tableRow, opcodeTable, opcodeTableLow, opcodeTableHigh]) ((wordXYN_and_arithmetic _ _ _ _).trans rfl)

theorem Laws.TableRow.subReg (x : Reg) (y : Reg) : Laws.TableRow.Statement (.subReg x y) :=
  Laws.TableRow.of_and _ (by simp [tableRow, opcodeTable, opcodeTableLow, opcodeTableHigh]) ((wordXYN_and_arithmetic _ _ _ _).trans rfl)

theorem Laws.TableRow.shr (x : Reg) (y : Reg) : Laws.TableRow.Statement (.shr x y) :=
  Laws.TableRow.of_and _ (by simp [tableRow, opcodeTable, opcodeTableLow, opcodeTableHigh]) ((wordXYN_and_arithmetic _ _ _ _).trans rfl)

theorem Laws.TableRow.subn (x : Reg) (y : Reg) : Laws.TableRow.Statement (.subn x y) :=
  Laws.TableRow.of_and _ (by simp [tableRow, opcodeTable, opcodeTableLow, opcodeTableHigh]) ((wordXYN_and_arithmetic _ _ _ _).trans rfl)

theorem Laws.TableRow.shl (x : Reg) (y : Reg) : Laws.TableRow.Statement (.shl x y) :=
  Laws.TableRow.of_and _ (by simp [tableRow, opcodeTable, opcodeTableLow, opcodeTableHigh]) ((wordXYN_and_arithmetic _ _ _ _).trans rfl)

theorem Laws.TableRow.sneReg (x : Reg) (y : Reg) : Laws.TableRow.Statement (.sneReg x y) :=
  Laws.TableRow.of_and _ (by simp [tableRow, opcodeTable, opcodeTableLow, opcodeTableHigh]) ((wordXYN_and_class _ _ _ _).trans rfl)

theorem Laws.TableRow.ldI (nnn : Addr12) : Laws.TableRow.Statement (.ldI nnn) :=
  Laws.TableRow.of_and _ (by simp [tableRow, opcodeTable, opcodeTableLow, opcodeTableHigh]) ((wordNNN_and_class _ _).trans rfl)

theorem Laws.TableRow.jpV0 (nnn : Addr12) : Laws.TableRow.Statement (.jpV0 nnn) :=
  Laws.TableRow.of_and _ (by simp [tableRow, opcodeTable, opcodeTableLow, opcodeTableHigh]) ((wordNNN_and_class _ _).trans rfl)

theorem Laws.TableRow.rnd (x : Reg) (nn : Byte) : Laws.TableRow.Statement (.rnd x nn) :=
  Laws.TableRow.of_and _ (by simp [tableRow, opcodeTable, opcodeTableLow, opcodeTableHigh]) ((wordXNN_and_class _ _ _).trans rfl)

theorem Laws.TableRow.drw (x : Reg) (y : Reg) (n : Nibble) : Laws.TableRow.Statement (.drw x y n) :=
  Laws.TableRow.of_and _ (by simp [tableRow, opcodeTable, opcodeTableLow, opcodeTableHigh]) ((wordXYN_and_class _ _ _ _).trans rfl)

theorem Laws.TableRow.skp (x : Reg) : Laws.TableRow.Statement (.skp x) :=
  Laws.TableRow.of_and _ (by simp [tableRow, opcodeTable, opcodeTableLow, opcodeTableHigh]) ((wordXNN_and_byte _ _ _).trans rfl)

theorem Laws.TableRow.sknp (x : Reg) : Laws.TableRow.Statement (.sknp x) :=
  Laws.TableRow.of_and _ (by simp [tableRow, opcodeTable, opcodeTableLow, opcodeTableHigh]) ((wordXNN_and_byte _ _ _).trans rfl)

theorem Laws.TableRow.ldVxDt (x : Reg) : Laws.TableRow.Statement (.ldVxDt x) :=
  Laws.TableRow.of_and _ (by simp [tableRow, opcodeTable, opcodeTableLow, opcodeTableHigh]) ((wordXNN_and_byte _ _ _).trans rfl)

theorem Laws.TableRow.ldVxK (x : Reg) : Laws.TableRow.Statement (.ldVxK x) :=
  Laws.TableRow.of_and _ (by simp [tableRow, opcodeTable, opcodeTableLow, opcodeTableHigh]) ((wordXNN_and_byte _ _ _).trans rfl)

theorem Laws.TableRow.ldDtVx (x : Reg) : Laws.TableRow.Statement (.ldDtVx x) :=
  Laws.TableRow.of_and _ (by simp [tableRow, opcodeTable, opcodeTableLow, opcodeTableHigh]) ((wordXNN_and_byte _ _ _).trans rfl)

theorem Laws.TableRow.ldStVx (x : Reg) : Laws.TableRow.Statement (.ldStVx x) :=
  Laws.TableRow.of_and _ (by simp [tableRow, opcodeTable, opcodeTableLow, opcodeTableHigh]) ((wordXNN_and_byte _ _ _).trans rfl)

theorem Laws.TableRow.addI (x : Reg) : Laws.TableRow.Statement (.addI x) :=
  Laws.TableRow.of_and _ (by simp [tableRow, opcodeTable, opcodeTableLow, opcodeTableHigh]) ((wordXNN_and_byte _ _ _).trans rfl)

theorem Laws.TableRow.ldF (x : Reg) : Laws.TableRow.Statement (.ldF x) :=
  Laws.TableRow.of_and _ (by simp [tableRow, opcodeTable, opcodeTableLow, opcodeTableHigh]) ((wordXNN_and_byte _ _ _).trans rfl)

theorem Laws.TableRow.ldB (x : Reg) : Laws.TableRow.Statement (.ldB x) :=
  Laws.TableRow.of_and _ (by simp [tableRow, opcodeTable, opcodeTableLow, opcodeTableHigh]) ((wordXNN_and_byte _ _ _).trans rfl)

theorem Laws.TableRow.storeRegs (x : Reg) : Laws.TableRow.Statement (.storeRegs x) :=
  Laws.TableRow.of_and _ (by simp [tableRow, opcodeTable, opcodeTableLow, opcodeTableHigh]) ((wordXNN_and_byte _ _ _).trans rfl)

theorem Laws.TableRow.loadRegs (x : Reg) : Laws.TableRow.Statement (.loadRegs x) :=
  Laws.TableRow.of_and _ (by simp [tableRow, opcodeTable, opcodeTableLow, opcodeTableHigh]) ((wordXNN_and_byte _ _ _).trans rfl)

end Sys2Proof
end

