-- ==== Sys2Proof/Tests/Slice0.lean ====
section
/-! SUPPORT. Tests of the model. Expected values are those of spec/95_test_vectors.md (named in each comment) or
worked by hand from the rule named; the words of the decode tests are written out from the patterns of
30_encoding.md R39. The last section shows, for each statement with hypotheses, values that meet them. -/

namespace Sys2Proof
namespace Machine

/-! ### Helpers -/

/-- Whether an outcome is a next state of which `p` holds. -/
def nextIs (o : Host.Outcome State Fault Refusal) (p : State → Bool) : Bool :=
  match o with
  | .next t => p t
  | .fault _ => false
  | .refused _ => false

/-- One `step(0xA5)` of the opcode `op`, placed where `s` fetches: whether it answers a state of which `p` holds. -/
def after (op : Nat) (s : State) (p : State → Bool) : Bool :=
  nextIs (applyCommand (.step 0xA5) (s.withFetchWord 16 op)) p

/-- Reset with two registers set. -/
def withRegs (x : Reg) (a : Byte) (y : Reg) (b : Byte) : State := (State.reset.setV x a).setV y b

/-- Reset with `pc` set. -/
def atPc (w : Word) : State := State.reset.setPc w

/-- Reset with a depth set. -/
def atDepth (n : Fin 17) : State := { State.reset with sp := n }

/-- The pixels of columns 0 to `w - 1` and rows 0 to `h - 1` that are set. -/
def lit (t : State) (w h : Nat) : List (Nat × Nat) :=
  ((List.range h).flatMap fun y => (List.range w).map fun x => (x, y)).filter fun p => t.disp.pixel p.1 p.2

/-! ### Well-formedness: an ill-formed term for each check is refused -/

theorem test_record_wf : (decodeRecord 0x6A02).wellFormed = true := by decide
theorem test_record_bad_cls : ({ decodeRecord 0x6A02 with cls := 7 } : Record).wellFormed = false := by decide
theorem test_record_bad_x : ({ decodeRecord 0x6A02 with x := 0 } : Record).wellFormed = false := by decide
theorem test_record_bad_y : ({ decodeRecord 0x6A02 with y := 2 } : Record).wellFormed = false := by decide
theorem test_record_bad_n : ({ decodeRecord 0x6A02 with n := 0 } : Record).wellFormed = false := by decide
theorem test_record_bad_nn : ({ decodeRecord 0x6A02 with nn := 0xA0 } : Record).wellFormed = false := by decide
theorem test_record_bad_nnn : ({ decodeRecord 0x6A02 with nnn := 0x002 } : Record).wellFormed = false := by decide

/-- The largest image is well formed, one byte more is not (R100). -/
theorem test_load_wf (b : Byte) :
    (Command.load (List.replicate 3584 b)).wellFormed = true
      ∧ (Command.load (List.replicate 3585 b)).wellFormed = false := by
  refine ⟨?_, ?_⟩
  · exact (imageFits_iff _).mpr (by rw [List.length_replicate])
  · exact Bool.eq_false_iff.mpr fun h => by
      have := (imageFits_iff _).mp h
      rw [List.length_replicate] at this
      omega

theorem test_mem_wf : Memory.wf [(0x000, 0x00), (0x300, 0x11), (0xFFF, 0x22)] = true := by decide
theorem test_mem_bad_order : Memory.wf [(0x301, 0x11), (0x300, 0x22)] = false := by decide
theorem test_mem_bad_repeat : Memory.wf [(0x300, 0x11), (0x300, 0x22)] = false := by decide
theorem test_mem_bad_range : Memory.wf [(0x1000, 0x11)] = false := by decide
theorem test_mem_bad_unlisted : Memory.wf [(0x000, 0xF0)] = false ∧ Memory.wf [(0x300, 0x00)] = false := by decide

/-! ### Decoding: a word for every instruction, nibble by nibble from 30_encoding.md R39 -/

theorem test_decode_control :
    decode 0b0000_0000_1110_1110 = .instr .ret
      ∧ decode 0b0001_1010_1011_1100 = .instr (.jp 0xABC)
      ∧ decode 0b0010_0011_0000_0000 = .instr (.call 0x300)
      ∧ decode 0b1011_0011_0000_0001 = .instr (.jpV0 0x301) := by decide

theorem test_decode_skips :
    decode 0b0011_1010_0000_0010 = .instr (.seByte 0xA 0x02)
      ∧ decode 0b0100_1010_0000_0010 = .instr (.sneByte 0xA 0x02)
      ∧ decode 0b0101_0001_0010_0000 = .instr (.seReg 0x1 0x2)
      ∧ decode 0b1001_0001_0010_0000 = .instr (.sneReg 0x1 0x2) := by decide

theorem test_decode_immediate :
    decode 0b0110_1010_0000_0010 = .instr (.ldByte 0xA 0x02)
      ∧ decode 0b0111_1010_1111_1111 = .instr (.addByte 0xA 0xFF)
      ∧ decode 0b1100_0011_0000_1111 = .instr (.rnd 0x3 0x0F) := by decide

theorem test_decode_arithmetic :
    decode 0b1000_0001_0010_0000 = .instr (.ldReg 0x1 0x2)
      ∧ decode 0b1000_0001_0010_0001 = .instr (.orReg 0x1 0x2)
      ∧ decode 0b1000_0001_0010_0010 = .instr (.andReg 0x1 0x2)
      ∧ decode 0b1000_0001_0010_0011 = .instr (.xorReg 0x1 0x2)
      ∧ decode 0b1000_1010_1011_0100 = .instr (.addReg 0xA 0xB)
      ∧ decode 0b1000_1010_1011_0101 = .instr (.subReg 0xA 0xB)
      ∧ decode 0b1000_1010_1011_0110 = .instr (.shr 0xA 0xB)
      ∧ decode 0b1000_1010_1011_0111 = .instr (.subn 0xA 0xB)
      ∧ decode 0b1000_1010_1011_1110 = .instr (.shl 0xA 0xB) := by decide

theorem test_decode_index :
    decode 0b1010_0011_0000_0000 = .instr (.ldI 0x300)
      ∧ decode 0b1111_0001_0001_1110 = .instr (.addI 0x1)
      ∧ decode 0b1111_0011_0010_1001 = .instr (.ldF 0x3)
      ∧ decode 0b1111_0000_0011_0011 = .instr (.ldB 0x0)
      ∧ decode 0b1111_0010_0101_0101 = .instr (.storeRegs 0x2)
      ∧ decode 0b1111_0010_0110_0101 = .instr (.loadRegs 0x2) := by decide

theorem test_decode_display :
    decode 0b0000_0000_1110_0000 = .instr .cls ∧ decode 0b1101_0001_0010_0101 = .instr (.drw 0x1 0x2 0x5) := by
  decide

theorem test_decode_keys_timers :
    decode 0b1110_0001_1001_1110 = .instr (.skp 0x1)
      ∧ decode 0b1110_0001_1010_0001 = .instr (.sknp 0x1)
      ∧ decode 0b1111_0101_0000_0111 = .instr (.ldVxDt 0x5)
      ∧ decode 0b1111_0011_0000_1010 = .instr (.ldVxK 0x3)
      ∧ decode 0b1111_0101_0001_0101 = .instr (.ldDtVx 0x5)
      ∧ decode 0b1111_0101_0001_1000 = .instr (.ldStVx 0x5) := by decide

/-- Nibbles that are not examined (R38, the spec's decision D8): `0*E0`, `0*EE`, `5XY*`, `9XY*`. -/
theorem test_decode_unexamined :
    decode 0x0AE0 = .instr .cls ∧ decode 0x0FEE = .instr .ret ∧ decode 0x512F = .instr (.seReg 1 2)
      ∧ decode 0x9127 = .instr (.sneReg 1 2) := by decide

/-- The unrecognized space, by name (R40). -/
theorem test_decode_unrecognized :
    decode 0x0000 = .unrecognized .system ∧ decode 0x0123 = .unrecognized .system
      ∧ decode 0x8128 = .unrecognized .arithmetic ∧ decode 0x812F = .unrecognized .arithmetic
      ∧ decode 0xE19F = .unrecognized .keySkip ∧ decode 0xF1FF = .unrecognized .misc := by decide

/-- V-ENC 1: the fields of `6A02`. -/
theorem test_record_fields :
    decodeRecord 0x6A02 = { opcode := 0x6A02, cls := 6, x := 0xA, y := 0, n := 2, nn := 0x02, nnn := 0xA02 } := by
  decide

theorem test_decodeTableWord :
    decodeTableWord 16 0xD125 = some (.drw 1 2 5) ∧ decodeTableWord 16 0x8008 = none := by decide

/-! ### Control flow (V-CF) -/

theorem test_jp : after 0x1ABC State.reset (fun t => t.pc == 0xABC) = true := by decide
theorem test_jp_odd : after 0x1201 State.reset (fun t => t.pc == 0x201) = true := by decide
theorem test_call :
    after 0x2300 State.reset (fun t => t.pc == 0x300 && t.sp == 1 && t.stack[0] == 0x202) = true := by decide
theorem test_call_full :
    after 0x2300 ((atDepth 16).setPc 0x400) (fun t => t.pc == 0x402 && t.sp == 16 && t.stackOverflow) = true := by decide
theorem test_ret :
    after 0x00EE ({ atDepth 2 with stack := State.reset.stack.set 1 0x20A })
      (fun t => t.pc == 0x20A && t.sp == 1 && t.stack[1] == 0x20A) = true := by decide
theorem test_ret_empty :
    after 0x00EE (atPc 0x300) (fun t => t.pc == 0x302 && t.sp == 0 && t.stackUnderflow) = true := by decide
theorem test_seByte : after 0x3A02 ((atPc 0x204).setV 0xA 2) (fun t => t.pc == 0x208) = true := by decide
theorem test_seByte_wrap : after 0x3101 ((atPc 0xFFFE).setV 1 1) (fun t => t.pc == 0x0002) = true := by decide
theorem test_sneByte : after 0x4A02 ((atPc 0x204).setV 0xA 3) (fun t => t.pc == 0x208) = true := by decide
theorem test_sneByte_not : after 0x4A02 ((atPc 0x204).setV 0xA 2) (fun t => t.pc == 0x206) = true := by decide
theorem test_seReg : after 0x5120 (withRegs 1 0x7F 2 0x7F) (fun t => t.pc == 0x204) = true := by decide
theorem test_seReg_not : after 0x5120 (withRegs 1 0x7F 2 0x7E) (fun t => t.pc == 0x202) = true := by decide
theorem test_sneReg : after 0x9120 (withRegs 1 1 2 2) (fun t => t.pc == 0x204) = true := by decide
theorem test_sneReg_same : after 0x9110 State.reset (fun t => t.pc == 0x202) = true := by decide
theorem test_jpV0_max : after 0xBFFF (State.reset.setV 0 0xFF) (fun t => t.pc == 0x10FE) = true := by decide
theorem test_jpV0_not_vx : after 0xB520 (withRegs 0 1 5 0x50) (fun t => t.pc == 0x521) = true := by decide

/-! ### Loads, arithmetic, logic, shifts, random (V-ALU) -/

theorem test_ldByte : after 0x6A02 State.reset (fun t => t.getV 0xA == 2) = true := by decide
theorem test_addByte_no_flag :
    after 0x7AFF (State.reset.setV 0xA 2) (fun t => t.getV 0xA == 1 && t.getV 0xF == 0) = true := by decide
theorem test_ldReg : after 0x8120 (State.reset.setV 2 0x5A) (fun t => t.getV 1 == 0x5A) = true := by decide
theorem test_or_keeps_vf :
    after 0x8121 ((withRegs 1 0x0F 2 0xF0).setV 0xF 1) (fun t => t.getV 1 == 0xFF && t.getV 0xF == 1) = true := by
  decide
theorem test_and : after 0x8122 (withRegs 1 0x3C 2 0x0F) (fun t => t.getV 1 == 0x0C) = true := by decide
theorem test_xor : after 0x8123 (withRegs 1 0xFF 2 0x0F) (fun t => t.getV 1 == 0xF0) = true := by decide
theorem test_add_carry :
    after 0x8AB4 (withRegs 0xA 0xFF 0xB 1) (fun t => t.getV 0xA == 0 && t.getV 0xF == 1) = true := by decide
theorem test_add_into_vf : after 0x8F14 (withRegs 0xF 0xFF 1 1) (fun t => t.getV 0xF == 0) = true := by decide
theorem test_sub_borrow :
    after 0x8AB5 (withRegs 0xA 3 0xB 5) (fun t => t.getV 0xA == 0xFE && t.getV 0xF == 0) = true := by decide
theorem test_sub_from_vf :
    after 0x81F5 (withRegs 0xF 0 1 1) (fun t => t.getV 1 == 1 && t.getV 0xF == 1) = true := by decide
theorem test_shr_ignores_vy :
    after 0x8AB6 (withRegs 0xA 5 0xB 0x99) (fun t => t.getV 0xA == 2 && t.getV 0xF == 1 && t.getV 0xB == 0x99) = true := by
  decide
theorem test_shr_vf : after 0x8F06 (State.reset.setV 0xF 5) (fun t => t.getV 0xF == 2) = true := by decide
theorem test_subn :
    after 0x8AB7 (withRegs 0xA 3 0xB 5) (fun t => t.getV 0xA == 2 && t.getV 0xF == 1) = true := by decide
theorem test_subn_equal :
    after 0x8AA7 (State.reset.setV 0xA 9) (fun t => t.getV 0xA == 0 && t.getV 0xF == 1) = true := by decide
theorem test_shl :
    after 0x8ABE (State.reset.setV 0xA 0x81) (fun t => t.getV 0xA == 2 && t.getV 0xF == 1) = true := by decide
theorem test_shl_vf : after 0x8F0E (State.reset.setV 0xF 0x81) (fun t => t.getV 0xF == 2) = true := by decide
theorem test_rnd : after 0xC30F State.reset (fun t => t.getV 3 == 0x05) = true := by decide

/-! ### Index register and memory transfers (V-IDX) -/

theorem test_ldI : after 0xAFFF State.reset (fun t => t.i == 0x0FFF) = true := by decide
theorem test_addI :
    after 0xF11E ((State.reset.setI 0x0FF0).setV 1 0x20) (fun t => t.i == 0x1010 && t.getV 0xF == 0) = true := by decide
theorem test_addI_wrap : after 0xF11E ((State.reset.setI 0xFFFF).setV 1 1) (fun t => t.i == 0) = true := by decide
theorem test_ldF : after 0xF329 (State.reset.setV 3 0x0F) (fun t => t.i == 0x004B) = true := by decide
theorem test_ldF_past_font : after 0xF329 (State.reset.setV 3 0xFF) (fun t => t.i == 0x04FB) = true := by decide
theorem test_ldB :
    after 0xF033 ((State.reset.setI 0x300).setV 0 0xFF)
      (fun t => t.memRead 0x300 == 2 && t.memRead 0x301 == 5 && t.memRead 0x302 == 5 && t.i == 0x300) = true := by decide
theorem test_ldB_wrap :
    after 0xF033 ((State.reset.setI 0x0FFE).setV 0 0x7B)
      (fun t => t.memRead 0xFFE == 1 && t.memRead 0xFFF == 2 && t.memRead 0 == 3) = true := by decide
theorem test_storeRegs :
    after 0xF255 ((((withRegs 0 0x11 1 0x22).setV 2 0x33).setV 3 0x44).setI 0x300)
      (fun t => t.mem == [(0x200, 0xF2), (0x201, 0x55), (0x300, 0x11), (0x301, 0x22), (0x302, 0x33)] && t.i == 0x300)
      = true := by decide
theorem test_storeRegs_wrap :
    after 0xF155 ((withRegs 0 0xAA 1 0xBB).setI 0x0FFF) (fun t => t.memRead 0xFFF == 0xAA && t.memRead 0 == 0xBB)
      = true := by decide
theorem test_loadRegs :
    after 0xF265 ((((State.reset.setI 0x300).setV 3 0x44).memWrite 0x300 0x11).memWrite 0x302 0x33)
      (fun t => t.getV 0 == 0x11 && t.getV 1 == 0 && t.getV 2 == 0x33 && t.getV 3 == 0x44 && t.i == 0x300) = true := by
  decide
theorem test_loadRegs_font : after 0xF065 State.reset (fun t => t.getV 0 == 0xF0) = true := by decide

/-! ### The framebuffer (V-DISP) -/

theorem test_cls :
    after 0x00E0 ((State.reset.setDisp (Display.clear.toggle 63 31)).setV 0xF 1)
      (fun t => t.disp == Display.clear && t.getV 0xF == 1) = true := by decide
/-- V-DISP 7: collision. -/
theorem test_drw_collision :
    after 0xD011 (State.reset.setDisp (Display.clear.toggle 0 0))
      (fun t => lit t 8 2 == [(1, 0), (2, 0), (3, 0)] && t.getV 0xF == 1) = true := by decide
/-- V-DISP 9: a coordinate in `VF`, clipped at both edges (first two rows of glyph A at column 60, row 30). -/
theorem test_drw_clip :
    after 0xDF15 ((withRegs 0xF 0x3C 1 0x1E).setI 0x032)
      (fun t => t.disp == (((Display.clear.set 30 0xF000000000000000).set 31 0x9000000000000000)) && t.getV 0xF == 0)
      = true := by decide

/-! ### Keypad and timers (V-KT, V-TICK) -/

theorem test_skp : after 0xE19E (((atPc 0x220).setV 1 5).setKey 0x0020) (fun t => t.pc == 0x224) = true := by decide
theorem test_skp_no_key_16 :
    after 0xE19E (((atPc 0x220).setV 1 0x10).setKey 0xFFFF) (fun t => t.pc == 0x222) = true := by decide
theorem test_sknp : after 0xE1A1 ((atPc 0x220).setV 1 5) (fun t => t.pc == 0x224) = true := by decide
theorem test_sknp_no_key_16 :
    after 0xE1A1 (((atPc 0x220).setV 1 0x10).setKey 0xFFFF) (fun t => t.pc == 0x224) = true := by decide
theorem test_ldVxDt : after 0xF507 (State.reset.setDt 0x3C) (fun t => t.getV 5 == 0x3C) = true := by decide
theorem test_ldVxK :
    after 0xF30A ((atPc 0x230).setKey 0x0880)
      (fun t => t.getV 3 == 7 && t.pc == 0x232 && t.port.stepStatus == .done) = true := by decide
theorem test_ldVxK_wait :
    after 0xF30A (atPc 0x0000) (fun t => t.pc == 0x0000 && t.port.stepStatus == .awaitingKey) = true := by decide
theorem test_ldDtVx : after 0xF515 (State.reset.setV 5 0x3C) (fun t => t.dt == 0x3C) = true := by decide
theorem test_ldStVx : after 0xF518 (State.reset.setV 5 2) (fun t => t.st == 2 && t.soundActive) = true := by decide
theorem test_tick :
    nextIs (applyCommand .tick ((State.reset.setDt 0).setSt 1)) (fun t => t.dt == 0 && t.st == 0 && !t.soundActive)
      = true := by decide
/-- V-TICK 5 and 6. -/
theorem test_stepsPerFrame :
    [30, 60, 119, 120, 540, 600, 700].map Config.stepsPerFrame = [1, 1, 1, 2, 9, 10, 11] := by decide

/-! ### Fetch, reset, load, the step of the machine -/

/-- V-ENC 3: an unrecognized opcode only advances `pc`. -/
theorem test_unrecognized : after 0x0000 State.reset (fun t => t.pc == 0x202) = true := by decide
/-- A fetch at 0xFFF takes its second byte from address 0 (R21): the font's first byte is 0xF0. -/
theorem test_fetch_wrap : fetchOpcode ((atPc 0x0FFF).memWrite 0xFFF 0x12) = 0x12F0 := by decide
/-- V-TICK 7. -/
theorem test_reset_font :
    [0x000, 0x001, 0x004, 0x04F, 0x050].map State.reset.memRead = [0xF0, 0x90, 0xF0, 0x80, 0x00] := by decide
/-- E8, its first instruction, launched as R101 says. -/
theorem test_launch_first_step :
    nextIs (runCommands (launchCommands [0x6A, 0x02, 0x60, 0x0C] ++ [.step 0]) State.reset)
      (fun t => t.getV 0xA == 2 && t.pc == 0x202 && t.port.loadStatus == .loaded) = true := by decide
/-- The machine's own step issues the first pending command. -/
theorem test_step_pending :
    nextIs (step (State.reset.setPending [.setKeys 0x8001, .tick])) (fun t => t.key == 0x8001 && t.port.pending == [.tick])
      = true := by decide
/-- With nothing placed the first step runs `0000`, a no-op, whatever the random byte. -/
theorem test_step_reset : nextIs (step State.reset) (fun t => t.pc == 0x202 && t.port.draws == 1) = true := by decide

/-! ### Witnesses: values that meet the hypotheses of each statement that has any -/

/-- A state whose memory lists two cells in canonical form, whose `I` has high bits, and whose registers differ. -/
def busy : State := ((withRegs 0 0x12 1 0x34).setI 0x1300).memWrite 0x300 0x77

theorem witness_EncodeOfDecode :
    decode 0x9ABF = .instr (.sneReg 0xA 0xB) ∧ decode 0x0FEE = .instr .ret := by decide

/-- An unrecognized word of each class, and the words beside them that are instructions. -/
theorem witness_UnrecognizedOpcodesAreExactlyTheListed :
    [0x00DF, 0x0FFF, 0x8008, 0x8FFF, 0xE000, 0xEFA2, 0xF000, 0xFFFF].all (fun w => (decode w).toInstr? == none) = true
      ∧ [0x00E0, 0x0FEE, 0x8FF7, 0x800E, 0xE09E, 0xEFA1, 0xF007, 0xFF65].all (fun w => (decode w).toInstr? != none)
        = true := by decide

theorem witness_StepRunsTheDecodedInstruction :
    (∃ s : State, decode (fetchOpcode s) = .instr (.jp 0x234) ∧ s.port.loadStatus ≠ .loadFailure
        ∧ s.port.pending = [.step 0x5A, .tick])
      ∧ ∃ s : State, decode (fetchOpcode s) = .instr (.jp 0x234) ∧ s.port.loadStatus ≠ .loadFailure
        ∧ s.port.pending = [] :=
  ⟨⟨(State.reset.withFetchWord 16 0x1234).setPending [.step 0x5A, .tick], by decide, by decide, rfl⟩,
    ⟨State.reset.withFetchWord 16 0x1234, by decide, by decide, rfl⟩⟩

theorem witness_FetchIsBigEndianAndWraps :
    (atPc 0x0FFF).pc.toNat % 4096 = 0xFFF ∧ (atPc 0xFFFF).pc.toNat % 4096 = 0xFFF := by decide

theorem witness_UnrecognizedOpcodeIsANoOp :
    decode (fetchOpcode (busy.withFetchWord 16 0x8008)) = .unrecognized .arithmetic
      ∧ (busy.withFetchWord 16 0x8008).port.loadStatus ≠ .loadFailure := by decide

theorem witness_WithFetchWordIsFetchedNext : MemCanonical (busy.setPc 0xFFFF) ∧ 0xFFFF < 2 ^ 16 :=
  ⟨by unfold MemCanonical; decide, by decide⟩

theorem witness_EqualBytesMeanEqualMemory :
    ∃ m n : Memory, m ≠ [] ∧ m.wf = true ∧ n.wf = true ∧ ∀ a, a < 4096 → m.read a = n.read a :=
  ⟨busy.mem, busy.mem, by decide, by decide, by decide, fun _ _ => rfl⟩

theorem witness_StepKeepsCanonicalMemory :
    ∃ s t : State, MemCanonical s ∧ step s = .next t ∧ t.mem ≠ s.mem :=
  ⟨busy.setPending [.load [0xAB]], _, by unfold MemCanonical; decide, rfl, by decide⟩

/-- Each clause at the two sides of the limit, and the empty image. -/
theorem witness_LoadWritesTheImageOrNothing :
    MemCanonical busy ∧ (List.replicate 3584 (0x11 : Byte)).length ≤ 3584 ∧ ([] : List Byte).length ≤ 3584
      ∧ 3584 < (List.replicate 3585 (0x11 : Byte)).length :=
  ⟨by unfold MemCanonical; decide, by rw [List.length_replicate], by decide, by rw [List.length_replicate]; decide⟩

/-- Both sides: a `step` after a failed load stops, any other command there does not, and neither does a `step`
with no failed load. -/
theorem witness_OnlyAStepAfterLoadFailureStops :
    (∃ s : State, s.port.loadStatus = .loadFailure ∧ ∃ r, nextCommand s = .step r)
      ∧ (∃ t, step ((State.reset.setLoadStatus .loadFailure).setPending [.reset]) = .next t)
      ∧ ∃ t, step busy = .next t :=
  ⟨⟨State.reset.setLoadStatus .loadFailure, rfl, _, rfl⟩, ⟨_, rfl⟩, ⟨_, rfl⟩⟩

/-- Both clauses of each timer. -/
theorem witness_TickCountsDownBothTimers :
    0 < (State.reset.setDt 0xFF).dt.toNat ∧ State.reset.dt.toNat = 0
      ∧ 0 < (State.reset.setSt 0x01).st.toNat ∧ State.reset.st.toNat = 0 := by decide

theorem witness_FrameIsKeysThenStepsThenOneTick :
    ∃ t, runFrame 120 0x0003 #v[0x11, 0x22] busy = .next t := ⟨_, rfl⟩

theorem witness_PendingCommandsRunInOrder : busy.port.pending = [] := rfl

theorem witness_CommandsWithFittingImagesNeverStop :
    imagesFit [.reset, .load [0x12, 0x00], .setKeys 3, .step 0x5A, .tick] = true
      ∧ busy.port.loadStatus ≠ .loadFailure := by decide

/-- Both clauses at the ends of their ranges. -/
theorem witness_CallPushesOrRecordsOverflow :
    (atDepth 0).sp.val < 16 ∧ (atDepth 15).sp.val < 16 ∧ (atDepth 16).sp.val = 16 := by decide

/-- Both clauses at the ends of their ranges. -/
theorem witness_RetPopsOrRecordsUnderflow :
    (atDepth 1).sp.val = (0 : Fin 16).val + 1 ∧ (atDepth 16).sp.val = (15 : Fin 16).val + 1
      ∧ (atDepth 0).sp.val = 0 := by decide

theorem witness_CallThenReturnComesBack :
    ∃ s t u : State, s.sp.val < 16 ∧ exec (.call 0x300) s = .next t ∧ u.stack = t.stack ∧ u.sp = t.sp
      ∧ s.sp.val = 15 ∧ u.pc ≠ t.pc :=
  ⟨atDepth 15, _, (callTo (addrOf 0x300) (atDepth 15)).setPc 0x400, by decide, rfl, rfl, rfl, rfl, by decide⟩

/-- Destinations on both sides of `x ≠ 15`, for the statements that write a flag. -/
theorem witness_flag_destinations : (0xE : Reg) ≠ 15 ∧ (0 : Reg) ≠ 15 ∧ (0xF : Reg) = 15 := by decide

theorem witness_VfIsNoHiddenInput :
    (∃ t u : State, ¬ namesReg 15 (.addReg 0 1) ∧ exec (.addReg 0 1) busy = .next t
        ∧ exec (.addReg 0 1) (busy.setV 15 0x55) = .next u ∧ writesFlag (.addReg 0 1))
      ∧ ∃ t u : State, ¬ namesReg 15 (.loadRegs 0xE) ∧ exec (.loadRegs 0xE) busy = .next t
        ∧ exec (.loadRegs 0xE) (busy.setV 15 0x55) = .next u :=
  ⟨⟨_, _, show ¬ ((15 : Reg) = 0 ∨ (15 : Reg) = 1) by decide, rfl, rfl, .inl ⟨_, _, rfl⟩⟩,
    ⟨_, _, show ¬ (15 : Reg) ≤ 0xE by decide, rfl, rfl⟩⟩

/-- The transfers' premise, where the addresses wrap. -/
theorem witness_transfers : MemCanonical (busy.setI 0x0FFF) ∧ MemCanonical (busy.setI 0xFFFF) :=
  ⟨by unfold MemCanonical; decide, by unfold MemCanonical; decide⟩

/-- The ends of the ranges of registers stored and loaded. -/
theorem witness_transfer_ranges : (0 : Reg) ≤ 0 ∧ (0xF : Reg) ≤ 0xF ∧ ¬ (1 : Reg) ≤ 0 := by decide

theorem witness_StoreThenLoadGivesTheRegistersBack :
    ∃ s t u : State, MemCanonical s ∧ exec (.storeRegs 0xF) s = .next t ∧ u.mem = t.mem ∧ u.i = s.i
      ∧ u.getV 0 ≠ s.getV 0 :=
  ⟨busy, _, (storeFirst 16 busy).setV 0 0x99, by unfold MemCanonical; decide, rfl, rfl, rfl, by decide⟩

/-- V-IDX 22 shifted: the two bytes stored lie across the end of memory, where `pc` points. -/
theorem witness_StoredBytesAreFetchedNext :
    ∃ s t : State, MemCanonical s ∧ exec (.storeRegs 1) s = .next t ∧ (1 : Reg) ≤ 1
      ∧ (1 : Reg).val = (0 : Reg).val + 1 ∧ s.pc.toNat % 4096 = (s.i.toNat + (0 : Reg).val) % 4096 :=
  ⟨(busy.setI 0x0FFF).setPc 0xFFFF, _, by unfold MemCanonical; decide, rfl, by decide, by decide, by decide⟩

theorem witness_HighBitsOfIndexReachNothing :
    ∃ t u : State, (0x0300 : Word).toNat % 4096 = (0xF300 : Word).toNat % 4096
      ∧ exec (.loadRegs 3) (busy.setI 0x0300) = .next t ∧ exec (.loadRegs 3) (busy.setI 0xF300) = .next u :=
  ⟨_, _, by decide, rfl, rfl⟩

/-- V-DISP 2 and 3: glyph 0 drawn twice at the corner. -/
theorem witness_DrawingTwiceRestoresTheDisplay :
    ∃ s t u : State, (0 : Reg) ≠ 15 ∧ (1 : Reg) ≠ 15 ∧ exec (.drw 0 1 5) s = .next t ∧ exec (.drw 0 1 5) t = .next u
      ∧ spriteBit s 0 1 5 0 0 = true :=
  ⟨State.reset, _, _, by decide, by decide, rfl, rfl, by decide⟩

/-- A pixel covered that was set, one covered that was clear, and the edges of the picture (V-DISP 7). -/
theorem witness_DrawInvertsTheClippedSprite :
    spriteBit State.reset 0 1 1 3 0 = true ∧ spriteBit State.reset 0 1 1 4 0 = false
      ∧ spriteBit State.reset 0 1 1 3 1 = false ∧ spriteBit (withRegs 0 0x3F 1 0x1F) 0 1 1 63 31 = true
      ∧ (Display.clear.toggle 0 0).pixel 0 0 = true := by decide

/-- Key numbers on both sides of 15, a key pressed and not. -/
theorem witness_KeySkipsFollowTheKeypad :
    (0x8000 : Keys).getLsbD (15 : Byte).toNat = true ∧ (0x8000 : Keys).getLsbD (14 : Byte).toNat = false
      ∧ ¬ (16 : Byte).toNat < 16 := by decide

/-- Both clauses: keys 7 and B pressed (V-KT 9), key F alone (V-KT 10), none. -/
theorem witness_WaitForKeyTakesTheLowestOrRewinds :
    ((0x0880 : Keys).getLsbD (7 : Reg).val = true ∧ ∀ j : Reg, j < 7 → (0x0880 : Keys).getLsbD j.val = false)
      ∧ ((0x8000 : Keys).getLsbD (15 : Reg).val = true ∧ ∀ j : Reg, j < 15 → (0x8000 : Keys).getLsbD j.val = false)
      ∧ State.reset.key = 0 := by decide

theorem witness_WaitingForAKeyChangesNothing :
    decode (fetchOpcode ((atPc 0x230).withFetchWord 16 0xF30A)) = .instr (.ldVxK 3)
      ∧ ((atPc 0x230).withFetchWord 16 0xF30A).key = 0
      ∧ ((atPc 0x230).withFetchWord 16 0xF30A).port.loadStatus ≠ .loadFailure := by decide

/-- Both sides: a wait, and a key taken. -/
theorem witness_AwaitingKeyOnlyAtAWaitWithNoKey :
    (∃ t, applyCommand (.step 0) ((atPc 0x230).withFetchWord 16 0xF30A) = .next t ∧ t.port.stepStatus = .awaitingKey)
      ∧ ∃ t, applyCommand (.step 0) (((atPc 0x230).setKey 0x8000).withFetchWord 16 0xF30A) = .next t
        ∧ t.port.stepStatus = .done :=
  ⟨⟨_, rfl, by decide⟩, ⟨_, rfl, by decide⟩⟩

/-- An instruction that writes each part: its premise is met, and the part does change. -/
theorem witness_EachPartHasItsOwnWriters :
    (∃ t, exec (.ldI 0x300) State.reset = .next t ∧ t.i ≠ State.reset.i)
      ∧ (∃ t, exec (.call 0x300) State.reset = .next t ∧ t.sp ≠ State.reset.sp)
      ∧ (∃ t, exec (.ldDtVx 0) busy = .next t ∧ t.dt ≠ busy.dt)
      ∧ (∃ t, exec (.ldStVx 0) busy = .next t ∧ t.st ≠ busy.st)
      ∧ (∃ t, exec (.drw 0 0 1) State.reset = .next t ∧ t.disp ≠ State.reset.disp)
      ∧ ∃ t, exec (.ldB 0) busy = .next t ∧ t.mem ≠ busy.mem :=
  ⟨⟨_, rfl, by decide⟩, ⟨_, rfl, by decide⟩, ⟨_, rfl, by decide⟩, ⟨_, rfl, by decide⟩, ⟨_, rfl, by decide⟩,
    ⟨_, rfl, by decide⟩⟩

/-- Both bits set, before an instruction and before another command. -/
theorem witness_StickyBitsStayUntilReset :
    (∃ s t : State, step s = .next t ∧ nextCommand s ≠ .reset ∧ s.stackOverflow = true ∧ s.stackUnderflow = true)
      ∧ ∃ s t : State, step s = .next t ∧ nextCommand s ≠ .reset ∧ s.stackOverflow = true
        ∧ s.port.pending = [.tick] :=
  ⟨⟨busy.setOverflow.setUnderflow, _, rfl, nofun, rfl, rfl⟩,
    ⟨busy.setOverflow.setPending [.tick], _, rfl, nofun, rfl, rfl⟩⟩

end Machine
end Sys2Proof
end

/-! The state of the core: the canonical form of memory, what each instruction can do to the state and what every
step keeps, registers an instruction does not name, reset and the outputs. -/

namespace Sys2Proof
namespace Machine

/-! ### The canonical form of memory determines it (10_state.md R16) -/

theorem Memory.wfFrom_cons_iff (lo a : Nat) (v : Byte) (m : Memory) :
    Memory.wfFrom lo ((a, v) :: m) = true ↔
      lo ≤ a ∧ a < Config.memSize ∧ v ≠ unlistedByte a ∧ Memory.wfFrom (a + 1) m = true := by
  simp only [Memory.wfFrom, Bool.and_eq_true, decide_eq_true_eq, bne_iff_ne, and_assoc]

@[simp] theorem Memory.read_cons_self (a : Nat) (v : Byte) (m : Memory) :
    Memory.read ((a, v) :: m) a = v := if_pos rfl

theorem Memory.read_cons_ne (m : Memory) {a b : Nat} (v : Byte) (h : b ≠ a) :
    Memory.read ((a, v) :: m) b = m.read b := if_neg h

/-- The first cell of a canonical memory shows: a memory that is canonical only from a later address on reads
otherwise there. -/
theorem Memory.read_head_ne {lo a : Nat} {v : Byte} {m n : Memory} (hm : Memory.wfFrom lo ((a, v) :: m) = true)
    (hn : Memory.wfFrom (a + 1) n = true) : Memory.read ((a, v) :: m) a ≠ n.read a := by
  obtain ⟨-, -, hv, -⟩ := (Memory.wfFrom_cons_iff lo a v m).mp hm
  rwa [Memory.read_cons_self, Memory.read_of_lt n hn (Nat.lt_succ_self a)]

/-- Where a head cell is canonical, the memory with that cell first is canonical from its address on. -/
theorem Memory.wfFrom_head {lo lo' a : Nat} {v : Byte} {m : Memory} (h : Memory.wfFrom lo ((a, v) :: m) = true)
    (ha : lo' ≤ a) : Memory.wfFrom lo' ((a, v) :: m) = true := by
  rw [Memory.wfFrom_cons_iff] at h ⊢
  exact ⟨ha, h.2⟩

/-- Memories canonical from `lo` on that read alike are equal: their first cells must coincide, since the earlier of
two different ones would show, and then so must their tails. -/
theorem Memory.ext_of_wfFrom (m n : Memory) {lo : Nat} (hm : Memory.wfFrom lo m = true)
    (hn : Memory.wfFrom lo n = true) (h : ∀ a, a < Config.memSize → m.read a = n.read a) : m = n := by
  induction m generalizing lo n with
  | nil =>
    cases n with
    | nil => rfl
    | cons d n =>
      obtain ⟨b, w⟩ := d
      obtain ⟨-, hb, -, -⟩ := (Memory.wfFrom_cons_iff lo b w n).mp hn
      exact absurd (h b hb).symm (Memory.read_head_ne (n := []) hn rfl)
  | cons c m ih =>
    obtain ⟨a, v⟩ := c
    obtain ⟨-, ha, -, hm'⟩ := (Memory.wfFrom_cons_iff lo a v m).mp hm
    cases n with
    | nil => exact absurd (h a ha) (Memory.read_head_ne (n := []) hm rfl)
    | cons d n =>
      obtain ⟨b, w⟩ := d
      obtain ⟨-, hb, -, hn'⟩ := (Memory.wfFrom_cons_iff lo b w n).mp hn
      rcases lt_trichotomy a b with hab | rfl | hba
      · exact absurd (h a ha) (Memory.read_head_ne hm (Memory.wfFrom_head hn hab))
      · have hvw : v = w := by simpa using h a ha
        have htail : ∀ q, q < Config.memSize → Memory.read m q = Memory.read n q := by
          intro q hq
          by_cases hqa : q = a
          · subst hqa
            rw [Memory.read_of_lt m hm' (Nat.lt_succ_self q), Memory.read_of_lt n hn' (Nat.lt_succ_self q)]
          · simpa only [Memory.read_cons_ne _ _ hqa] using h q hq
        rw [hvw, ih n hm' hn' htail]
      · exact absurd (h b hb).symm (Memory.read_head_ne hn (Memory.wfFrom_head hm hba))

/-- Settles O11, by induction on both lists of cells from a common lower bound. -/
theorem equalBytesMeanEqualMemory : Obligations.EqualBytesMeanEqualMemory :=
  fun m n hm hn h => Memory.ext_of_wfFrom m n hm hn h

/-! ### What an instruction can do -/

/-- The kinds of effect an instruction can have on the state it runs in, each with the instructions that may have it
where it reaches beyond the registers and `pc` (10_state.md R8 to R17). -/
inductive Effect (s : State) : Instr → State → Prop where
  | registers (i : Instr) (v : Vector Byte 16) : Effect s i { s with v := v }
  | jump (i : Instr) (w : Word) : Effect s i (s.setPc w)
  | index (i : Instr) (w : Word) (hi : (∃ a, i = .ldI a) ∨ (∃ x, i = .addI x) ∨ ∃ x, i = .ldF x) :
      Effect s i (s.setI w)
  | push (a : Addr12) (room : s.sp.val < 16) : Effect s (.call a) ((s.push s.pc room).setPc (addrOf a))
  | overflow (a : Addr12) : Effect s (.call a) s.setOverflow
  | pop (used : 0 < s.sp.val) : Effect s .ret (s.dropTop.setPc (s.top used))
  | underflow : Effect s .ret s.setUnderflow
  | delayTimer (x : Reg) (b : Byte) : Effect s (.ldDtVx x) (s.setDt b)
  | soundTimer (x : Reg) (b : Byte) : Effect s (.ldStVx x) (s.setSt b)
  | display (i : Instr) (v : Vector Byte 16) (d : Display) (hi : i = .cls ∨ ∃ x y n, i = .drw x y n) :
      Effect s i { s with v := v, disp := d }
  | wait (x : Reg) : Effect s (.ldVxK x) ((rewind s).setStepStatus .awaitingKey)
  | memory (i : Instr) (m : Memory) (hi : (∃ x, i = .ldB x) ∨ ∃ x, i = .storeRegs x)
      (hwf : s.mem.wf = true → m.wf = true) : Effect s i { s with mem := m }

theorem effect_skipIf (i : Instr) (c : Bool) (s : State) : Effect s i (skipIf c s) := by
  rw [skipIf_eq]
  exact .jump i _

theorem effect_writeFlagThenResult (i : Instr) (x : Reg) (f b : Byte) (s : State) :
    Effect s i (writeFlagThenResult x f b s) := .registers i _

theorem effect_callTo (a : Addr12) (s : State) : Effect s (.call a) (callTo (addrOf a) s) := by
  rcases callTo_cases (addrOf a) s with ⟨room, h⟩ | ⟨-, h⟩ <;> rw [h]
  · exact .push a room
  · exact .overflow a

theorem effect_returnFromCall (s : State) : Effect s .ret (returnFromCall s) := by
  rcases returnFromCall_cases s with ⟨used, h⟩ | ⟨-, h⟩ <;> rw [h]
  · exact .pop used
  · exact .underflow

theorem effect_takeKey (x : Reg) (s : State) : Effect s (.ldVxK x) (takeKey x s) := by
  rcases takeKey_cases x s with ⟨k, -, h⟩ | ⟨-, h⟩ <;> rw [h]
  · exact .registers _ _
  · exact .wait x

theorem effect_storeDigits (x : Reg) (b : Byte) (s : State) : Effect s (.ldB x) (storeDigits b s) := by
  obtain ⟨m, h, hwf⟩ := storeDigits_frame b s
  rw [h]
  exact .memory _ m (.inl ⟨x, rfl⟩) hwf

theorem effect_storeFirst (x : Reg) (n : Nat) (s : State) : Effect s (.storeRegs x) (storeFirst n s) := by
  obtain ⟨m, h, hwf⟩ := storeFirst_frame n s
  rw [h]
  exact .memory _ m (.inr ⟨x, rfl⟩) hwf

theorem effect_loadFirst (i : Instr) (n : Nat) (s : State) : Effect s i (loadFirst n s) := by
  obtain ⟨v, h⟩ := loadFirst_frame n s
  rw [h]
  exact .registers i v

/-- Every instruction completes with one of these effects. -/
theorem exec_effect (i : Instr) (s : State) : ∃ t, exec i s = .next t ∧ Effect s i t := by
  cases i with
  | cls => exact ⟨_, rfl, .display _ s.v _ (.inl rfl)⟩
  | ret => exact ⟨_, rfl, effect_returnFromCall s⟩
  | jp nnn => exact ⟨_, rfl, .jump _ _⟩
  | call nnn => exact ⟨_, rfl, effect_callTo nnn s⟩
  | seByte x nn => exact ⟨_, rfl, effect_skipIf _ _ s⟩
  | sneByte x nn => exact ⟨_, rfl, effect_skipIf _ _ s⟩
  | seReg x y => exact ⟨_, rfl, effect_skipIf _ _ s⟩
  | ldByte x nn => exact ⟨_, rfl, .registers _ _⟩
  | addByte x nn => exact ⟨_, rfl, .registers _ _⟩
  | ldReg x y => exact ⟨_, rfl, .registers _ _⟩
  | orReg x y => exact ⟨_, rfl, .registers _ _⟩
  | andReg x y => exact ⟨_, rfl, .registers _ _⟩
  | xorReg x y => exact ⟨_, rfl, .registers _ _⟩
  | addReg x y => exact ⟨_, rfl, effect_writeFlagThenResult _ _ _ _ s⟩
  | subReg x y => exact ⟨_, rfl, effect_writeFlagThenResult _ _ _ _ s⟩
  | shr x y => exact ⟨_, rfl, effect_writeFlagThenResult _ _ _ _ s⟩
  | subn x y => exact ⟨_, rfl, effect_writeFlagThenResult _ _ _ _ s⟩
  | shl x y => exact ⟨_, rfl, effect_writeFlagThenResult _ _ _ _ s⟩
  | sneReg x y => exact ⟨_, rfl, effect_skipIf _ _ s⟩
  | ldI nnn => exact ⟨_, rfl, .index _ _ (.inl ⟨nnn, rfl⟩)⟩
  | jpV0 nnn => exact ⟨_, rfl, .jump _ _⟩
  | rnd x nn => exact ⟨_, rfl, .registers _ _⟩
  | drw x y n => exact ⟨_, rfl, .display _ _ _ (.inr ⟨x, y, n, rfl⟩)⟩
  | skp x => exact ⟨_, rfl, effect_skipIf _ _ s⟩
  | sknp x => exact ⟨_, rfl, effect_skipIf _ _ s⟩
  | ldVxDt x => exact ⟨_, rfl, .registers _ _⟩
  | ldVxK x => exact ⟨_, rfl, effect_takeKey x s⟩
  | ldDtVx x => exact ⟨_, rfl, .delayTimer x _⟩
  | ldStVx x => exact ⟨_, rfl, .soundTimer x _⟩
  | addI x => exact ⟨_, rfl, .index _ _ (.inr (.inl ⟨x, rfl⟩))⟩
  | ldF x => exact ⟨_, rfl, .index _ _ (.inr (.inr ⟨x, rfl⟩))⟩
  | ldB x => exact ⟨_, rfl, effect_storeDigits x _ s⟩
  | storeRegs x => exact ⟨_, rfl, effect_storeFirst x _ s⟩
  | loadRegs x => exact ⟨_, rfl, effect_loadFirst _ _ s⟩

/-- What an instruction answers is an effect of it. -/
theorem effect_of_exec {i : Instr} {s t : State} (h : exec i s = .next t) : Effect s i t := by
  obtain ⟨u, hu, heff⟩ := exec_effect i s
  rw [hu] at h
  cases h
  exact heff

/-- An effect keeps the canonical form of memory. -/
theorem Effect.mem_wf {i : Instr} {s t : State} (h : Effect s i t) (hwf : s.mem.wf = true) : t.mem.wf = true := by
  cases h with
  | memory _ m hi hm => exact hm hwf
  | _ => exact hwf

/-- An effect sets `stack_overflow` or leaves it. -/
theorem Effect.stackOverflow_mono {i : Instr} {s t : State} (h : Effect s i t) (hs : s.stackOverflow = true) :
    t.stackOverflow = true := by
  cases h with
  | overflow a => rfl
  | _ => exact hs

/-- An effect sets `stack_underflow` or leaves it. -/
theorem Effect.stackUnderflow_mono {i : Instr} {s t : State} (h : Effect s i t) (hs : s.stackUnderflow = true) :
    t.stackUnderflow = true := by
  cases h with
  | underflow => rfl
  | _ => exact hs

/-- Settles O54: each kind of effect reaches beyond the registers, `pc` and the ports only for the instructions that
`Effect` names with it. -/
theorem eachPartHasItsOwnWriters : Obligations.EachPartHasItsOwnWriters := by
  intro i s t h
  cases effect_of_exec h with
  | index _ w hi => simp [hi]
  | display _ v d hi => simp [hi]
  | memory _ m hi hwf => simp [hi]
  | _ => simp [rewind]

/-! ### What a step keeps -/

/-- A `step` of the host runs one effect, or only fetches. -/
theorem cmdStep_effect {r : Byte} {s t : State} (h : cmdStep r s = .next t) :
    t = beginStep r s ∨ ∃ i, Effect (beginStep r s) i t := by
  rcases cmdStep_cases r s t h with ⟨i, -, hexec⟩ | ⟨why, -, rfl⟩
  · exact .inr ⟨i, effect_of_exec hexec⟩
  · exact .inl rfl

theorem cmdLoad_mem_wf (image : List Byte) (s : State) (h : s.mem.wf = true) : (cmdLoad image s).mem.wf = true := by
  rcases cmdLoad_cases image s with ⟨-, hl⟩ | ⟨-, hl⟩ <;> rw [hl]
  · exact Memory.wf_writeBytes image s.mem Config.entry h
  · exact h

theorem cmdLoad_stackOverflow (image : List Byte) (s : State) :
    (cmdLoad image s).stackOverflow = s.stackOverflow := by
  rcases cmdLoad_cases image s with ⟨-, hl⟩ | ⟨-, hl⟩ <;> rw [hl] <;> rfl

theorem cmdLoad_stackUnderflow (image : List Byte) (s : State) :
    (cmdLoad image s).stackUnderflow = s.stackUnderflow := by
  rcases cmdLoad_cases image s with ⟨-, hl⟩ | ⟨-, hl⟩ <;> rw [hl] <;> rfl

/-- Every host command keeps the canonical form of memory. -/
theorem applyCommand_mem_wf {c : Command} {s t : State} (hwf : s.mem.wf = true) (h : applyCommand c s = .next t) :
    t.mem.wf = true := by
  cases c with
  | reset => cases h; exact reset_mem_wf
  | load image => cases h; exact cmdLoad_mem_wf image s hwf
  | setKeys k => cases h; exact hwf
  | step r =>
    rcases cmdStep_effect h with rfl | ⟨i, heff⟩
    · exact hwf
    · exact heff.mem_wf hwf
  | tick => cases h; exact hwf

/-- Every host command but `reset` keeps a recorded overflow and a recorded underflow. -/
theorem applyCommand_sticky {c : Command} {s t : State} (hc : c ≠ .reset) (h : applyCommand c s = .next t) :
    (s.stackOverflow = true → t.stackOverflow = true) ∧ (s.stackUnderflow = true → t.stackUnderflow = true) := by
  cases c with
  | reset => exact absurd rfl hc
  | load image => cases h; rw [cmdLoad_stackOverflow, cmdLoad_stackUnderflow]; exact ⟨id, id⟩
  | setKeys k => cases h; exact ⟨id, id⟩
  | step r =>
    rcases cmdStep_effect h with rfl | ⟨i, heff⟩
    · exact ⟨id, id⟩
    · exact ⟨heff.stackOverflow_mono, heff.stackUnderflow_mono⟩
  | tick => cases h; exact ⟨id, id⟩

/-- Settles O12: the step applies one host command, in a state with the memory of the one before. -/
theorem stepKeepsCanonicalMemory : Obligations.StepKeepsCanonicalMemory := by
  intro s t hwf h
  have htaken : (takeCommand s).mem.wf = true := by rw [takeCommand_mem]; exact hwf
  exact applyCommand_mem_wf htaken h

/-- Settles O55: the step applies one host command, in a state with the sticky bits of the one before. -/
theorem stickyBitsStayUntilReset : Obligations.StickyBitsStayUntilReset := by
  intro s t h hc
  simpa using applyCommand_sticky hc h

/-! ### A register an instruction does not name (10_state.md R9) -/

theorem State.setV_comm (s : State) {q r : Reg} (a b : Byte) (h : r ≠ q) :
    (s.setV r b).setV q a = (s.setV q a).setV r b := by
  have hv : r.val ≠ q.val := fun e => h (Fin.ext e)
  simp only [State.setV, Vector.set_comm _ _ hv]

@[simp] theorem State.setV_setV_self (s : State) (r : Reg) (a b : Byte) : (s.setV r a).setV r b = s.setV r b := by
  simp [State.setV]

theorem skipIf_setV (c : Bool) (s : State) (r : Reg) (b : Byte) :
    skipIf c (s.setV r b) = (skipIf c s).setV r b := by
  rw [skipIf_eq, skipIf_eq]
  rfl

theorem callTo_of_room {s : State} (w : Word) (room : s.sp.val < 16) :
    callTo w s = (s.push s.pc room).setPc w := dif_pos room

theorem callTo_of_full {s : State} (w : Word) (full : ¬ s.sp.val < 16) : callTo w s = s.setOverflow := dif_neg full

theorem callTo_setV (w : Word) (s : State) (r : Reg) (b : Byte) :
    callTo w (s.setV r b) = (callTo w s).setV r b := by
  by_cases room : s.sp.val < 16
  · rw [callTo_of_room w room]
    exact callTo_of_room (s := s.setV r b) w room
  · rw [callTo_of_full w room]
    exact callTo_of_full (s := s.setV r b) w room

theorem returnFromCall_of_used {s : State} (used : 0 < s.sp.val) :
    returnFromCall s = s.dropTop.setPc (s.top used) := dif_pos used

theorem returnFromCall_of_empty {s : State} (empty : ¬ 0 < s.sp.val) : returnFromCall s = s.setUnderflow :=
  dif_neg empty

theorem returnFromCall_setV (s : State) (r : Reg) (b : Byte) :
    returnFromCall (s.setV r b) = (returnFromCall s).setV r b := by
  by_cases used : 0 < s.sp.val
  · rw [returnFromCall_of_used used]
    exact returnFromCall_of_used (s := s.setV r b) used
  · rw [returnFromCall_of_empty used]
    exact returnFromCall_of_empty (s := s.setV r b) used

theorem takeKey_setV (s : State) {x r : Reg} (b : Byte) (h : r ≠ x) :
    takeKey x (s.setV r b) = (takeKey x s).setV r b := by
  unfold takeKey
  rw [State.setV_key]
  cases leastKey s.key with
  | none => rfl
  | some k => exact State.setV_comm s _ b h

/-- The register a transfer reaches at offset `k` is not one with a higher number. -/
theorem ofNat_reg_ne_of_lt {k : Nat} {r : Reg} (h : k < r.val) : Fin.ofNat 16 k ≠ r := by
  have hr := r.isLt
  rw [ne_eq, Fin.ext_iff, Fin.val_ofNat]
  omega

theorem storeFirst_setV (n : Nat) (s : State) (r : Reg) (b : Byte) (h : n ≤ r.val) :
    storeFirst n (s.setV r b) = (storeFirst n s).setV r b := by
  induction n with
  | zero => rfl
  | succ k ih =>
    rw [storeFirst, ih (by omega), State.getV_setV_ne s r _ b (ofNat_reg_ne_of_lt h)]
    rfl

theorem loadFirst_setV (n : Nat) (s : State) (r : Reg) (b : Byte) (h : n ≤ r.val) :
    loadFirst n (s.setV r b) = (loadFirst n s).setV r b := by
  induction n with
  | zero => rfl
  | succ k ih =>
    rw [loadFirst, ih (by omega), State.setV_comm _ _ _ (ofNat_reg_ne_of_lt h).symm]
    rfl

/-- An update that passes over a change of `r` still does when it is given a register other than `r`. -/
theorem update_getV_setV (f : Byte → State → State) (s : State) {x r : Reg} (b : Byte) (hx : ¬ r = x)
    (hf : ∀ vx, f vx (s.setV r b) = (f vx s).setV r b) :
    f ((s.setV r b).getV x) (s.setV r b) = (f (s.getV x) s).setV r b := by
  rw [State.getV_setV_ne s r x b (Ne.symm hx), hf]

/-- The same for an update given two registers other than `r`. -/
theorem update_getV_getV_setV (f : Byte → Byte → State → State) (s : State) {x y r : Reg} (b : Byte)
    (h : ¬ (r = x ∨ r = y)) (hf : ∀ vx vy, f vx vy (s.setV r b) = (f vx vy s).setV r b) :
    f ((s.setV r b).getV x) ((s.setV r b).getV y) (s.setV r b) = (f (s.getV x) (s.getV y) s).setV r b := by
  obtain ⟨hx, hy⟩ := not_or.mp h
  rw [State.getV_setV_ne s r x b (Ne.symm hx), State.getV_setV_ne s r y b (Ne.symm hy), hf]

/-- A result of two registers other than `r`, written to the first of them. -/
theorem setV_result_setV (op : Byte → Byte → Byte) (s : State) {x y r : Reg} (b : Byte) (h : ¬ (r = x ∨ r = y)) :
    (s.setV r b).setV x (op ((s.setV r b).getV x) ((s.setV r b).getV y))
      = (s.setV x (op (s.getV x) (s.getV y))).setV r b :=
  update_getV_getV_setV (fun vx vy u => u.setV x (op vx vy)) s b h
    fun _ _ => State.setV_comm s _ b (not_or.mp h).1

/-- A skip decided by two registers other than `r`. -/
theorem skipIf_getV_setV (c : Byte → Byte → Bool) (s : State) {x y r : Reg} (b : Byte) (h : ¬ (r = x ∨ r = y)) :
    skipIf (c ((s.setV r b).getV x) ((s.setV r b).getV y)) (s.setV r b)
      = (skipIf (c (s.getV x) (s.getV y)) s).setV r b :=
  update_getV_getV_setV (fun vx vy => skipIf (c vx vy)) s b h fun _ _ => skipIf_setV _ s r b

/-- A flag and a result computed from registers other than `VF` replace whatever `VF` held. -/
theorem writeFlagThenResult_setV_vf (flag op : Byte → Byte → Byte) (s : State) {x y : Reg} (b : Byte)
    (h : ¬ (Reg.vf = x ∨ Reg.vf = y)) :
    writeFlagThenResult x (flag ((s.setV Reg.vf b).getV x) ((s.setV Reg.vf b).getV y))
        (op ((s.setV Reg.vf b).getV x) ((s.setV Reg.vf b).getV y)) (s.setV Reg.vf b)
      = writeFlagThenResult x (flag (s.getV x) (s.getV y)) (op (s.getV x) (s.getV y)) s := by
  obtain ⟨hx, hy⟩ := not_or.mp h
  rw [State.getV_setV_ne s _ x b (Ne.symm hx), State.getV_setV_ne s _ y b (Ne.symm hy)]
  simp only [writeFlagThenResult, State.setV_setV_self]

/-- A sprite placed by registers other than `r` does not depend on `r`. -/
theorem blitSprite_setV (n : Nibble) (s : State) {x y r : Reg} (b : Byte) (h : ¬ (r = x ∨ r = y)) :
    blitSprite x y n (s.setV r b) = blitSprite x y n s := by
  obtain ⟨hx, hy⟩ := not_or.mp h
  unfold blitSprite
  rw [State.getV_setV_ne s r x b (Ne.symm hx), State.getV_setV_ne s r y b (Ne.symm hy)]
  exact blitRows_congr _ _ _ _ _ _ fun _ => rfl

/-- An instruction that writes no flag carries a change of a register it does not name through to its end. -/
theorem exec_setV_of_not_named {i : Instr} {s t : State} {r : Reg} (b : Byte) (hn : ¬ namesReg r i)
    (hf : ¬ writesFlag i) (h : exec i s = .next t) : exec i (s.setV r b) = .next (t.setV r b) := by
  cases i with
  | cls => cases h; rfl
  | ret => cases h; exact congrArg _ (returnFromCall_setV s r b)
  | jp nnn => cases h; rfl
  | call nnn => cases h; exact congrArg _ (callTo_setV _ s r b)
  | seByte x nn =>
    cases h
    exact congrArg _ (update_getV_setV (fun vx => skipIf (vx == nn)) s b hn fun _ => skipIf_setV _ s r b)
  | sneByte x nn =>
    cases h
    exact congrArg _ (update_getV_setV (fun vx => skipIf (vx != nn)) s b hn fun _ => skipIf_setV _ s r b)
  | seReg x y => cases h; exact congrArg _ (skipIf_getV_setV (· == ·) s b hn)
  | ldByte x nn => cases h; exact congrArg _ (State.setV_comm s _ b hn)
  | addByte x nn =>
    cases h
    exact congrArg _ (update_getV_setV (fun vx u => u.setV x (vx + nn)) s b hn fun _ => State.setV_comm s _ b hn)
  | ldReg x y => cases h; exact congrArg _ (setV_result_setV (fun _ vy => vy) s b hn)
  | orReg x y => cases h; exact congrArg _ (setV_result_setV (· ||| ·) s b hn)
  | andReg x y => cases h; exact congrArg _ (setV_result_setV (· &&& ·) s b hn)
  | xorReg x y => cases h; exact congrArg _ (setV_result_setV (· ^^^ ·) s b hn)
  | addReg x y => exact absurd (.inl ⟨x, y, rfl⟩) hf
  | subReg x y => exact absurd (.inr (.inl ⟨x, y, rfl⟩)) hf
  | shr x y => exact absurd (.inr (.inr (.inl ⟨x, y, rfl⟩))) hf
  | subn x y => exact absurd (.inr (.inr (.inr (.inl ⟨x, y, rfl⟩)))) hf
  | shl x y => exact absurd (.inr (.inr (.inr (.inr (.inl ⟨x, y, rfl⟩))))) hf
  | sneReg x y => cases h; exact congrArg _ (skipIf_getV_setV (· != ·) s b hn)
  | ldI nnn => cases h; rfl
  | jpV0 nnn =>
    cases h
    exact congrArg _ (update_getV_setV (fun v0 u => u.setPc (addrOf nnn + wordOfByte v0)) s b hn fun _ => rfl)
  | rnd x nn => cases h; exact congrArg _ (State.setV_comm s _ b hn)
  | drw x y n => exact absurd (.inr (.inr (.inr (.inr (.inr ⟨x, y, n, rfl⟩))))) hf
  | skp x =>
    cases h
    exact congrArg _ (update_getV_setV (fun vx => skipIf (keyDown s vx)) s b hn fun _ => skipIf_setV _ s r b)
  | sknp x =>
    cases h
    exact congrArg _ (update_getV_setV (fun vx => skipIf (!keyDown s vx)) s b hn fun _ => skipIf_setV _ s r b)
  | ldVxDt x => cases h; exact congrArg _ (State.setV_comm s _ b hn)
  | ldVxK x => cases h; exact congrArg _ (takeKey_setV s b hn)
  | ldDtVx x => cases h; exact congrArg _ (update_getV_setV (fun vx u => u.setDt vx) s b hn fun _ => rfl)
  | ldStVx x => cases h; exact congrArg _ (update_getV_setV (fun vx u => u.setSt vx) s b hn fun _ => rfl)
  | addI x =>
    cases h
    exact congrArg _ (update_getV_setV (fun vx u => u.setI (u.i + wordOfByte vx)) s b hn fun _ => rfl)
  | ldF x =>
    cases h
    exact congrArg _ (update_getV_setV (fun vx u => u.setI (wordOfByte vx * 5)) s b hn fun _ => rfl)
  | ldB x => cases h; exact congrArg _ (update_getV_setV storeDigits s b hn fun _ => rfl)
  | storeRegs x => cases h; exact congrArg _ (storeFirst_setV _ s r b (not_le.mp hn))
  | loadRegs x => cases h; exact congrArg _ (loadFirst_setV _ s r b (not_le.mp hn))

/-- An instruction that writes the flag and does not name `VF` gives the same state whatever `VF` held: it computes
from other registers, and overwrites `VF`. -/
theorem exec_setV_vf_of_writesFlag {i : Instr} (s : State) (b : Byte) (hn : ¬ namesReg Reg.vf i)
    (hf : writesFlag i) : exec i (s.setV Reg.vf b) = exec i s := by
  rcases hf with ⟨x, y, rfl⟩ | ⟨x, y, rfl⟩ | ⟨x, y, rfl⟩ | ⟨x, y, rfl⟩ | ⟨x, y, rfl⟩ | ⟨x, y, n, rfl⟩
  · exact congrArg Host.Outcome.next (writeFlagThenResult_setV_vf carryFlag (· + ·) s b hn)
  · exact congrArg Host.Outcome.next (writeFlagThenResult_setV_vf noBorrowFlag (· - ·) s b hn)
  · exact congrArg Host.Outcome.next
      (writeFlagThenResult_setV_vf (fun vx _ => lowBitFlag vx) (fun vx _ => vx >>> 1) s b (or_self_iff.not.mpr hn))
  · exact congrArg Host.Outcome.next
      (writeFlagThenResult_setV_vf (fun vx vy => noBorrowFlag vy vx) (fun vx vy => vy - vx) s b hn)
  · exact congrArg Host.Outcome.next
      (writeFlagThenResult_setV_vf (fun vx _ => highBitFlag vx) (fun vx _ => vx <<< 1) s b (or_self_iff.not.mpr hn))
  · simp only [exec, execDrw, blitSprite_setV n s b hn]
    exact congrArg _ (State.setV_setV_self (s.setDisp (blitSprite x y n s).1) Reg.vf b _)

/-- Settles O37: a flag writer ends in the same state, and any other instruction in states that differ in `VF`
alone. -/
theorem vfIsNoHiddenInput : Obligations.VfIsNoHiddenInput := by
  intro i s t u b hn ht hu
  by_cases hf : writesFlag i
  · have hut : u = t := Host.Outcome.next.inj (hu.symm.trans ((exec_setV_vf_of_writesFlag s b hn hf).trans ht))
    subst hut
    exact ⟨ChangesOnly.refl _ _, fun _ => rfl⟩
  · have hut : u = t.setV 15 b := Host.Outcome.next.inj (hu.symm.trans (exec_setV_of_not_named b hn hf ht))
    subst hut
    exact ⟨changesOnly_setV t 15 b, fun h => absurd h hf⟩

/-! ### Reset and the outputs (10_state.md R19, 60_exceptions.md R90, R93) -/

/-- Settles O13: each field of `State.reset` is a constant, and its memory lists no cell, so that every address reads
the reset contents. -/
theorem resetLeavesTheStatedValues : Obligations.ResetLeavesTheStatedValues := by
  have hmem : ∀ a, State.reset.memRead a = if h : a % 4096 < 80 then Config.font[a % 4096]'h else 0 := by
    intro a
    change Config.font.getD (a % 4096) 0 = _
    by_cases h : a % 4096 < 80
    · rw [dif_pos h]
      exact List.getD_eq_getElem Config.font 0 h
    · rw [dif_neg h]
      exact List.getD_eq_default Config.font 0 (Nat.le_of_not_lt h)
  refine ⟨reset_mem_wf, fun r => ?_, rfl, rfl, fun k => ?_, rfl, rfl, rfl, rfl, Display.pixel_clear, hmem, rfl, rfl⟩
  · exact Vector.getElem_replicate r.isLt
  · exact Vector.getElem_replicate k.isLt

/-- The output `display` at a position below 2048 is the pixel of that position. -/
theorem State.display_getElem? (s : State) {p : Nat} (hp : p < 2048) :
    s.display[p]? = some (s.disp.pixel (p % 64) (p / 64)) := by
  unfold State.display
  rw [List.getElem?_map, List.getElem?_range (show p < Config.width * Config.height from hp)]
  rfl

/-- Settles O22: position `py * 64 + px` has the column `px` as its remainder by 64 and the row `py` as its quotient. -/
theorem outputsShowDisplayAndSound : Obligations.OutputsShowDisplayAndSound := by
  intro s
  refine ⟨?_, fun px py hx hy => ?_, ?_⟩
  · rw [State.display, List.length_map, List.length_range]
    rfl
  · have hcol : (py * 64 + px) % 64 = px := by omega
    have hrow : (py * 64 + px) / 64 = py := by omega
    rw [State.display_getElem? s (by omega), hcol, hrow]
  · rw [State.soundActive, bne_iff_ne, ne_eq, ne_eq, ← BitVec.toNat_inj]
    rfl

end Machine
end Sys2Proof

/-! Memory as instructions reach it: only the low 12 bits of an address count, `I` reaches a byte by its low 12 bits
alone, and what is stored where `pc` points is what the next step fetches. -/

namespace Sys2Proof
namespace Machine

/-! ### Addresses are reduced at the access (20_memory.md R21) -/

/-- A read depends on the reduced address only. -/
theorem State.memRead_congr (s : State) {a b : Nat} (h : phys a = phys b) : s.memRead a = s.memRead b :=
  congrArg s.mem.read h

/-- A write depends on the reduced address only. -/
theorem State.memWrite_congr (s : State) {a b : Nat} (v : Byte) (h : phys a = phys b) :
    s.memWrite a v = s.memWrite b v := by
  rw [State.memWrite, State.memWrite, h]

theorem phys_add_of_mod_eq {a b : Nat} (k : Nat) (h : a % 4096 = b % 4096) : phys (a + k) = phys (b + k) :=
  Nat.ModEq.add_right k h

/-! ### Only the low 12 bits of `I` reach memory (20_memory.md R21) -/

theorem skipIf_setI (c : Bool) (s : State) (w : Word) : skipIf c (s.setI w) = (skipIf c s).setI w := by
  rw [skipIf_eq, skipIf_eq]
  rfl

theorem callTo_setI (a : Word) (s : State) (w : Word) : callTo a (s.setI w) = (callTo a s).setI w := by
  by_cases room : s.sp.val < 16
  · rw [callTo_of_room a room]
    exact callTo_of_room (s := s.setI w) a room
  · rw [callTo_of_full a room]
    exact callTo_of_full (s := s.setI w) a room

theorem returnFromCall_setI (s : State) (w : Word) : returnFromCall (s.setI w) = (returnFromCall s).setI w := by
  by_cases used : 0 < s.sp.val
  · rw [returnFromCall_of_used used]
    exact returnFromCall_of_used (s := s.setI w) used
  · rw [returnFromCall_of_empty used]
    exact returnFromCall_of_empty (s := s.setI w) used

theorem takeKey_setI (x : Reg) (s : State) (w : Word) : takeKey x (s.setI w) = (takeKey x s).setI w := by
  unfold takeKey
  rw [State.setI_key]
  cases leastKey s.key with
  | none => rfl
  | some k => rfl

section SameLowBits
variable {s : State} {w : Word} (h : s.i.toNat % 4096 = w.toNat % 4096)
include h

/-- The address at an offset from an `I` with the same low 12 bits reduces to the same one. -/
theorem phys_indexAddr_setI (k : Nat) : phys (indexAddr (s.setI w) k) = phys (indexAddr s k) :=
  phys_add_of_mod_eq k h.symm

theorem memRead_indexAddr_setI (k : Nat) :
    (s.setI w).memRead (indexAddr (s.setI w) k) = s.memRead (indexAddr s k) :=
  s.memRead_congr (phys_indexAddr_setI h k)

/-- A store at an offset from `I`, into a state `t` on the way of a transfer that began in `s`. -/
theorem memWrite_indexAddr_setI (t : State) (k : Nat) (b : Byte) :
    (t.setI w).memWrite (indexAddr (s.setI w) k) b = (t.memWrite (indexAddr s k) b).setI w :=
  (t.setI w).memWrite_congr b (phys_indexAddr_setI h k)

theorem storeDigits_setI (b : Byte) : storeDigits b (s.setI w) = (storeDigits b s).setI w := by
  simp only [storeDigits, memWrite_indexAddr_setI h]

theorem storeFirst_setI (n : Nat) : storeFirst n (s.setI w) = (storeFirst n s).setI w := by
  induction n with
  | zero => rfl
  | succ k ih => rw [storeFirst, ih, memWrite_indexAddr_setI h, State.setI_getV, storeFirst]

theorem loadFirst_setI (n : Nat) : loadFirst n (s.setI w) = (loadFirst n s).setI w := by
  induction n with
  | zero => rfl
  | succ k ih =>
    rw [loadFirst, ih, memRead_indexAddr_setI h]
    rfl

theorem blitSprite_setI (x y : Reg) (n : Nibble) : blitSprite x y n (s.setI w) = blitSprite x y n s :=
  blitRows_congr _ _ _ _ _ _ (memRead_indexAddr_setI h)

/-- An instruction that runs from an `I` with the same low 12 bits ends in the same state but for `I`: it passes over
`I`, overwrites it, or reaches memory through it by the reduced address. -/
theorem exec_setI_of_mod_eq {i : Instr} {t : State} (ht : exec i s = .next t) :
    ∃ w', exec i (s.setI w) = .next (t.setI w') := by
  cases i with
  | cls => cases ht; exact ⟨w, rfl⟩
  | ret => cases ht; exact ⟨w, congrArg _ (returnFromCall_setI s w)⟩
  | jp nnn => cases ht; exact ⟨w, rfl⟩
  | call nnn => cases ht; exact ⟨w, congrArg _ (callTo_setI _ s w)⟩
  | seByte x nn => cases ht; exact ⟨w, congrArg _ (skipIf_setI _ s w)⟩
  | sneByte x nn => cases ht; exact ⟨w, congrArg _ (skipIf_setI _ s w)⟩
  | seReg x y => cases ht; exact ⟨w, congrArg _ (skipIf_setI _ s w)⟩
  | ldByte x nn => cases ht; exact ⟨w, rfl⟩
  | addByte x nn => cases ht; exact ⟨w, rfl⟩
  | ldReg x y => cases ht; exact ⟨w, rfl⟩
  | orReg x y => cases ht; exact ⟨w, rfl⟩
  | andReg x y => cases ht; exact ⟨w, rfl⟩
  | xorReg x y => cases ht; exact ⟨w, rfl⟩
  | addReg x y => cases ht; exact ⟨w, rfl⟩
  | subReg x y => cases ht; exact ⟨w, rfl⟩
  | shr x y => cases ht; exact ⟨w, rfl⟩
  | subn x y => cases ht; exact ⟨w, rfl⟩
  | shl x y => cases ht; exact ⟨w, rfl⟩
  | sneReg x y => cases ht; exact ⟨w, congrArg _ (skipIf_setI _ s w)⟩
  | ldI nnn => cases ht; exact ⟨addrOf nnn, rfl⟩
  | jpV0 nnn => cases ht; exact ⟨w, rfl⟩
  | rnd x nn => cases ht; exact ⟨w, rfl⟩
  | drw x y n =>
    cases ht
    refine ⟨w, ?_⟩
    simp only [exec, execDrw, blitSprite_setI h]
    rfl
  | skp x => cases ht; exact ⟨w, congrArg _ (skipIf_setI _ s w)⟩
  | sknp x => cases ht; exact ⟨w, congrArg _ (skipIf_setI _ s w)⟩
  | ldVxDt x => cases ht; exact ⟨w, rfl⟩
  | ldVxK x => cases ht; exact ⟨w, congrArg _ (takeKey_setI x s w)⟩
  | ldDtVx x => cases ht; exact ⟨w, rfl⟩
  | ldStVx x => cases ht; exact ⟨w, rfl⟩
  | addI x => cases ht; exact ⟨w + wordOfByte (s.getV x), rfl⟩
  | ldF x => cases ht; exact ⟨wordOfByte (s.getV x) * 5, rfl⟩
  | ldB x => cases ht; exact ⟨w, congrArg _ (storeDigits_setI h _)⟩
  | storeRegs x => cases ht; exact ⟨w, congrArg _ (storeFirst_setI h _)⟩
  | loadRegs x => cases ht; exact ⟨w, congrArg _ (loadFirst_setI h _)⟩

end SameLowBits

/-- Settles O44: the second run starts from the first one's state with another `I`, and so ends in its end state with
another `I`. -/
theorem highBitsOfIndexReachNothing : Obligations.HighBitsOfIndexReachNothing := by
  intro i s t u w w' hw ht hu
  obtain ⟨v, hv⟩ := exec_setI_of_mod_eq (s := s.setI w) (w := w') hw ht
  have hut : u = t.setI v := Host.Outcome.next.inj (hu.symm.trans hv)
  subst hut
  exact changesOnly_setI t v

/-! ### The opcode fetched (20_memory.md R21, R24) -/

theorem fetchOpcode_toNat (s : State) :
    (fetchOpcode s).toNat = 256 * (s.memRead s.pc.toNat).toNat + (s.memRead (s.pc.toNat + 1)).toNat :=
  opcodeOf_toNat _ _

/-- Settles O8: the opcode of two bytes as a number, and the second address reduced on its own. -/
theorem fetchIsBigEndianAndWraps : Obligations.FetchIsBigEndianAndWraps := by
  intro s
  refine ⟨fetchOpcode_toNat s, fun hpc => s.memRead_congr ?_⟩
  exact phys_add_of_mod_eq (b := 0xFFF) 1 hpc

/-- The two bytes of an opcode make it up again. -/
theorem opcodeOf_opcodeHi_opcodeLo (op : Word) : opcodeOf (opcodeHi op) (opcodeLo op) = op := by
  have hop := op.isLt
  apply BitVec.eq_of_toNat_eq
  rw [opcodeOf_toNat]
  simp only [opcodeHi, opcodeLo, BitVec.extractLsb'_toNat, Nat.shiftRight_eq_div_pow]
  omega

@[simp] theorem storeOpcode_pc (op : Word) (s : State) : (storeOpcode op s).pc = s.pc := rfl

/-- An opcode stored where `pc` points is the one fetched: the second byte lands at another address than the first. -/
theorem fetchOpcode_storeOpcode (op : Word) (s : State) (hwf : s.mem.wf = true) :
    fetchOpcode (storeOpcode op s) = op := by
  have hne : phys s.pc.toNat ≠ phys (s.pc.toNat + 1) := by
    simp only [phys, Config.memSize]
    omega
  have hhi : (storeOpcode op s).memRead s.pc.toNat = opcodeHi op := by
    rw [storeOpcode, State.memRead_memWrite_ne _ _ _ _ hne, State.memRead_memWrite_eq _ _ _ _ hwf rfl]
  have hlo : (storeOpcode op s).memRead (s.pc.toNat + 1) = opcodeLo op :=
    State.memRead_memWrite_eq _ _ _ _ (State.memWrite_wf s _ _ hwf) rfl
  rw [fetchOpcode, storeOpcode_pc, hhi, hlo, opcodeOf_opcodeHi_opcodeLo]

/-! ### Registers stored where `pc` points (20_memory.md R32, 70_reset_and_hazards.md R104) -/

@[simp] theorem storeFirst_pc (n : Nat) (s : State) : (storeFirst n s).pc = s.pc := by
  obtain ⟨m, hm, -⟩ := storeFirst_frame n s
  rw [hm]

/-- A register stored reads back at every address that reduces to its own. -/
theorem storeFirst_memRead_reg {x k : Reg} {s : State} {a : Nat} (hwf : s.mem.wf = true) (hk : k ≤ x)
    (ha : a % 4096 = (s.i.toNat + k.val) % 4096) : (storeFirst (x.val + 1) s).memRead a = s.getV k := by
  have haddr : phys a = phys (indexAddr s k.val) := ha
  rw [State.memRead_congr _ haddr,
    storeFirst_memRead _ s k.val (Nat.lt_succ_of_le hk) (Nat.succ_le_of_lt x.isLt) hwf, Fin.ofNat_val_eq_self]

/-- Settles O43: the transfer leaves `pc`, and the two registers stand at the two addresses it fetches from. -/
theorem storedBytesAreFetchedNext : Obligations.StoredBytesAreFetchedNext := by
  intro x k j s t hwf ht hjx hjk hpc
  cases ht
  have hkx : k ≤ x := le_trans (Fin.le_def.mpr (by omega)) hjx
  have hpc' : (s.pc.toNat + 1) % 4096 = (s.i.toNat + j.val) % 4096 := by omega
  rw [fetchOpcode_toNat, storeFirst_pc, storeFirst_memRead_reg hwf hkx hpc, storeFirst_memRead_reg hwf hjx hpc']

/-! ### A state prepared to run an opcode (30_encoding.md R36) -/

theorem LoadStatus.runnable_ne_loadFailure (l : LoadStatus) : l.runnable ≠ .loadFailure := by
  cases l with
  | notIssued => nofun
  | loaded => nofun
  | loadFailure => nofun

theorem nextCommand_of_pending_nil {s : State} (hp : s.port.pending = []) :
    nextCommand s = .step (Config.randByte s.port.draws) := by rw [nextCommand, hp]

theorem takeCommand_of_pending_nil {s : State} (hp : s.port.pending = []) : takeCommand s = s.countDraw := by
  rw [takeCommand, hp]

/-- With no command pending and no failed load, the machine's step runs what `pc` fetches, with a free random byte. -/
theorem step_of_ready {s : State} (hp : s.port.pending = []) (hl : s.port.loadStatus ≠ .loadFailure) :
    step s = execDecoded (decode (fetchOpcode s)) (beginStep (Config.randByte s.port.draws) (takeCommand s)) := by
  rw [step, nextCommand_of_pending_nil hp, takeCommand_of_pending_nil hp]
  exact if_neg hl

theorem fetchOpcode_withFetchWord (s : State) (nbits w : Nat) (hwf : s.mem.wf = true) :
    fetchOpcode (s.withFetchWord nbits w) = tableWord nbits w :=
  fetchOpcode_storeOpcode _ (readyToStep s) hwf

theorem withFetchWord_pending (s : State) (nbits w : Nat) : (s.withFetchWord nbits w).port.pending = [] := rfl

theorem withFetchWord_loadStatus (s : State) (nbits w : Nat) :
    (s.withFetchWord nbits w).port.loadStatus ≠ .loadFailure := LoadStatus.runnable_ne_loadFailure s.port.loadStatus

theorem tableWord_of_lt {w : Nat} (h : w < 2 ^ 16) : tableWord 16 w = BitVec.ofNat 16 w := by
  rw [tableWord, Nat.mod_eq_of_lt h]

/-- Settles O10: the word stored is the one fetched, and the state prepared has no command pending and no failed
load. -/
theorem withFetchWordIsFetchedNext : Obligations.WithFetchWordIsFetchedNext := by
  intro s w hwf hw
  have hfetch : fetchOpcode (s.withFetchWord 16 w) = BitVec.ofNat 16 w :=
    (fetchOpcode_withFetchWord s 16 w hwf).trans (tableWord_of_lt hw)
  have hpending := withFetchWord_pending s 16 w
  have hstep := step_of_ready hpending (withFetchWord_loadStatus s 16 w)
  rw [hfetch] at hstep ⊢
  exact ⟨Nat.mod_eq_of_lt hw, ⟨_, nextCommand_of_pending_nil hpending⟩, ⟨_, hstep⟩⟩

end Machine
end Sys2Proof

/-! Encoding and decoding: what an opcode's dispatch says about its fields, and that decoder, encoder and opcode map
agree. -/

namespace Sys2Proof

/-! ### Dispatch in terms of fields (30_encoding.md R38 to R40) -/

/-- The fields a record has when it dispatches to `d`, read off the patterns of 30_encoding.md R39 and the list of
R40: the class first, then the fields in the order they stand in the opcode. -/
def Record.DecodesTo (r : Record) : Decoded → Prop
  | .instr .cls => r.cls = 0x0 ∧ r.nn = 0xE0
  | .instr .ret => r.cls = 0x0 ∧ r.nn = 0xEE
  | .instr (.jp nnn) => r.cls = 0x1 ∧ r.nnn = nnn
  | .instr (.call nnn) => r.cls = 0x2 ∧ r.nnn = nnn
  | .instr (.seByte x nn) => r.cls = 0x3 ∧ r.x = x ∧ r.nn = nn
  | .instr (.sneByte x nn) => r.cls = 0x4 ∧ r.x = x ∧ r.nn = nn
  | .instr (.seReg x y) => r.cls = 0x5 ∧ r.x = x ∧ r.y = y
  | .instr (.ldByte x nn) => r.cls = 0x6 ∧ r.x = x ∧ r.nn = nn
  | .instr (.addByte x nn) => r.cls = 0x7 ∧ r.x = x ∧ r.nn = nn
  | .instr (.ldReg x y) => r.cls = 0x8 ∧ r.x = x ∧ r.y = y ∧ r.n = 0x0
  | .instr (.orReg x y) => r.cls = 0x8 ∧ r.x = x ∧ r.y = y ∧ r.n = 0x1
  | .instr (.andReg x y) => r.cls = 0x8 ∧ r.x = x ∧ r.y = y ∧ r.n = 0x2
  | .instr (.xorReg x y) => r.cls = 0x8 ∧ r.x = x ∧ r.y = y ∧ r.n = 0x3
  | .instr (.addReg x y) => r.cls = 0x8 ∧ r.x = x ∧ r.y = y ∧ r.n = 0x4
  | .instr (.subReg x y) => r.cls = 0x8 ∧ r.x = x ∧ r.y = y ∧ r.n = 0x5
  | .instr (.shr x y) => r.cls = 0x8 ∧ r.x = x ∧ r.y = y ∧ r.n = 0x6
  | .instr (.subn x y) => r.cls = 0x8 ∧ r.x = x ∧ r.y = y ∧ r.n = 0x7
  | .instr (.shl x y) => r.cls = 0x8 ∧ r.x = x ∧ r.y = y ∧ r.n = 0xE
  | .instr (.sneReg x y) => r.cls = 0x9 ∧ r.x = x ∧ r.y = y
  | .instr (.ldI nnn) => r.cls = 0xA ∧ r.nnn = nnn
  | .instr (.jpV0 nnn) => r.cls = 0xB ∧ r.nnn = nnn
  | .instr (.rnd x nn) => r.cls = 0xC ∧ r.x = x ∧ r.nn = nn
  | .instr (.drw x y n) => r.cls = 0xD ∧ r.x = x ∧ r.y = y ∧ r.n = n
  | .instr (.skp x) => r.cls = 0xE ∧ r.x = x ∧ r.nn = 0x9E
  | .instr (.sknp x) => r.cls = 0xE ∧ r.x = x ∧ r.nn = 0xA1
  | .instr (.ldVxDt x) => r.cls = 0xF ∧ r.x = x ∧ r.nn = 0x07
  | .instr (.ldVxK x) => r.cls = 0xF ∧ r.x = x ∧ r.nn = 0x0A
  | .instr (.ldDtVx x) => r.cls = 0xF ∧ r.x = x ∧ r.nn = 0x15
  | .instr (.ldStVx x) => r.cls = 0xF ∧ r.x = x ∧ r.nn = 0x18
  | .instr (.addI x) => r.cls = 0xF ∧ r.x = x ∧ r.nn = 0x1E
  | .instr (.ldF x) => r.cls = 0xF ∧ r.x = x ∧ r.nn = 0x29
  | .instr (.ldB x) => r.cls = 0xF ∧ r.x = x ∧ r.nn = 0x33
  | .instr (.storeRegs x) => r.cls = 0xF ∧ r.x = x ∧ r.nn = 0x55
  | .instr (.loadRegs x) => r.cls = 0xF ∧ r.x = x ∧ r.nn = 0x65
  | .unrecognized .system => r.cls = 0x0 ∧ r.nn ∉ [0xE0, 0xEE]
  | .unrecognized .arithmetic => r.cls = 0x8 ∧ r.n ∉ [0x0, 0x1, 0x2, 0x3, 0x4, 0x5, 0x6, 0x7, 0xE]
  | .unrecognized .keySkip => r.cls = 0xE ∧ r.nn ∉ [0x9E, 0xA1]
  | .unrecognized .misc => r.cls = 0xF ∧ r.nn ∉ [0x07, 0x0A, 0x15, 0x18, 0x1E, 0x29, 0x33, 0x55, 0x65]

theorem dispatchSystem_decodesTo {r : Record} (hc : r.cls = 0x0) : r.DecodesTo (dispatchSystem r) := by
  unfold dispatchSystem
  split_ifs
  iterate 2 exact And.intro hc ‹_›
  simp_all [Record.DecodesTo]

theorem dispatchArithmetic_decodesTo {r : Record} (hc : r.cls = 0x8) : r.DecodesTo (dispatchArithmetic r) := by
  unfold dispatchArithmetic
  split_ifs
  iterate 9 exact And.intro hc ⟨rfl, rfl, ‹_›⟩
  simp_all [Record.DecodesTo]

theorem dispatchKeySkip_decodesTo {r : Record} (hc : r.cls = 0xE) : r.DecodesTo (dispatchKeySkip r) := by
  unfold dispatchKeySkip
  split_ifs
  iterate 2 exact And.intro hc ⟨rfl, ‹_›⟩
  simp_all [Record.DecodesTo]

theorem dispatchMisc_decodesTo {r : Record} (hc : r.cls = 0xF) : r.DecodesTo (dispatchMisc r) := by
  unfold dispatchMisc
  split_ifs
  iterate 9 exact And.intro hc ⟨rfl, ‹_›⟩
  simp_all [Record.DecodesTo]

/-- A record has the fields of what it dispatches to, class by class from `0x0` to `0xF`. -/
theorem dispatch_decodesTo (r : Record) : r.DecodesTo (dispatch r) := by
  obtain ⟨op, ⟨⟨c, hc⟩⟩, x, y, n, nn, nnn⟩ := r
  interval_cases c
  · exact dispatchSystem_decodesTo rfl
  · exact And.intro rfl rfl
  · exact And.intro rfl rfl
  · exact And.intro rfl ⟨rfl, rfl⟩
  · exact And.intro rfl ⟨rfl, rfl⟩
  · exact And.intro rfl ⟨rfl, rfl⟩
  · exact And.intro rfl ⟨rfl, rfl⟩
  · exact And.intro rfl ⟨rfl, rfl⟩
  · exact dispatchArithmetic_decodesTo rfl
  · exact And.intro rfl ⟨rfl, rfl⟩
  · exact And.intro rfl rfl
  · exact And.intro rfl rfl
  · exact And.intro rfl ⟨rfl, rfl⟩
  · exact And.intro rfl ⟨rfl, rfl, rfl⟩
  · exact dispatchKeySkip_decodesTo rfl
  · exact dispatchMisc_decodesTo rfl

/-- A record dispatches to whatever it has the fields of: each class, and each secondary key within its class, has
one row only. -/
theorem dispatch_of_decodesTo {r : Record} {d : Decoded} (h : r.DecodesTo d) : dispatch r = d := by
  cases d with
  | instr i =>
    cases i <;> simp only [Record.DecodesTo] at h <;>
      simp [dispatch, dispatchSystem, dispatchArithmetic, dispatchKeySkip, dispatchMisc, h]
  | unrecognized why =>
    cases why <;>
      simp_all [Record.DecodesTo, dispatch, dispatchSystem, dispatchArithmetic, dispatchKeySkip, dispatchMisc]

/-- Dispatch is exactly the patterns of 30_encoding.md R39 and the list of R40. -/
theorem dispatch_eq_iff (r : Record) (d : Decoded) : dispatch r = d ↔ r.DecodesTo d :=
  ⟨fun h => h ▸ dispatch_decodesTo r, dispatch_of_decodesTo⟩

theorem decode_eq_iff (op : Word) (d : Decoded) : decode op = d ↔ (decodeRecord op).DecodesTo d :=
  dispatch_eq_iff _ d

/-! ### Decoding an instruction's opcode (30_encoding.md R39) -/

/-- The opcode of an instruction has the fields of that instruction, at every value of its operands. -/
theorem decodeRecord_encode (i : Instr) : (decodeRecord (encode i)).DecodesTo (.instr i) := by
  cases i with
  | cls => exact And.imp_right And.right (decodeRecord_wordXNN _ _ _)
  | ret => exact And.imp_right And.right (decodeRecord_wordXNN _ _ _)
  | jp nnn => exact decodeRecord_wordNNN _ nnn
  | call nnn => exact decodeRecord_wordNNN _ nnn
  | seByte x nn => exact decodeRecord_wordXNN _ x nn
  | sneByte x nn => exact decodeRecord_wordXNN _ x nn
  | seReg x y => exact And.imp_right (And.imp_right And.left) (decodeRecord_wordXYN _ x y _)
  | ldByte x nn => exact decodeRecord_wordXNN _ x nn
  | addByte x nn => exact decodeRecord_wordXNN _ x nn
  | ldReg x y => exact decodeRecord_wordXYN _ x y _
  | orReg x y => exact decodeRecord_wordXYN _ x y _
  | andReg x y => exact decodeRecord_wordXYN _ x y _
  | xorReg x y => exact decodeRecord_wordXYN _ x y _
  | addReg x y => exact decodeRecord_wordXYN _ x y _
  | subReg x y => exact decodeRecord_wordXYN _ x y _
  | shr x y => exact decodeRecord_wordXYN _ x y _
  | subn x y => exact decodeRecord_wordXYN _ x y _
  | shl x y => exact decodeRecord_wordXYN _ x y _
  | sneReg x y => exact And.imp_right (And.imp_right And.left) (decodeRecord_wordXYN _ x y _)
  | ldI nnn => exact decodeRecord_wordNNN _ nnn
  | jpV0 nnn => exact decodeRecord_wordNNN _ nnn
  | rnd x nn => exact decodeRecord_wordXNN _ x nn
  | drw x y n => exact decodeRecord_wordXYN _ x y n
  | skp x => exact decodeRecord_wordXNN _ x _
  | sknp x => exact decodeRecord_wordXNN _ x _
  | ldVxDt x => exact decodeRecord_wordXNN _ x _
  | ldVxK x => exact decodeRecord_wordXNN _ x _
  | ldDtVx x => exact decodeRecord_wordXNN _ x _
  | ldStVx x => exact decodeRecord_wordXNN _ x _
  | addI x => exact decodeRecord_wordXNN _ x _
  | ldF x => exact decodeRecord_wordXNN _ x _
  | ldB x => exact decodeRecord_wordXNN _ x _
  | storeRegs x => exact decodeRecord_wordXNN _ x _
  | loadRegs x => exact decodeRecord_wordXNN _ x _

/-- Settles O1: the opcode has the instruction's fields, and dispatch answers what the fields say. -/
theorem decodeOfEncode : Obligations.DecodeOfEncode :=
  fun i => dispatch_of_decodesTo (decodeRecord_encode i)

/-! ### An opcode is made of its fields (30_encoding.md R34) -/

theorem decodeRecord_cls (op : Word) : (decodeRecord op).cls = op.extractLsb' 12 4 := rfl
theorem ofFin_decodeRecord_x (op : Word) : BitVec.ofFin (decodeRecord op).x = op.extractLsb' 8 4 := rfl
theorem ofFin_decodeRecord_y (op : Word) : BitVec.ofFin (decodeRecord op).y = op.extractLsb' 4 4 := rfl
theorem decodeRecord_n (op : Word) : (decodeRecord op).n = op.extractLsb' 0 4 := rfl
theorem decodeRecord_nn (op : Word) : (decodeRecord op).nn = op.extractLsb' 0 8 := rfl
theorem decodeRecord_nnn (op : Word) : (decodeRecord op).nnn = op.extractLsb' 0 12 := rfl

theorem wordNNN_decodeRecord (op : Word) : wordNNN (decodeRecord op).cls (decodeRecord op).nnn = op := by
  apply BitVec.eq_of_getLsbD_eq
  intro i hi
  interval_cases i <;> simp [wordNNN, decodeRecord_cls, decodeRecord_nnn]

theorem wordXNN_decodeRecord (op : Word) :
    wordXNN (decodeRecord op).cls (decodeRecord op).x (decodeRecord op).nn = op := by
  apply BitVec.eq_of_getLsbD_eq
  intro i hi
  interval_cases i <;> simp [wordXNN, decodeRecord_cls, ofFin_decodeRecord_x, decodeRecord_nn]

theorem wordXYN_decodeRecord (op : Word) :
    wordXYN (decodeRecord op).cls (decodeRecord op).x (decodeRecord op).y (decodeRecord op).n = op := by
  apply BitVec.eq_of_getLsbD_eq
  intro i hi
  interval_cases i <;>
    simp [wordXYN, decodeRecord_cls, ofFin_decodeRecord_x, ofFin_decodeRecord_y, decodeRecord_n]

/-- The examined bits of `5XY*` and `9XY*`. -/
theorem wordXYN_and_registers (c : Nibble) (x y : Reg) (n : Nibble) :
    wordXYN c x y n &&& 0xFFF0 = wordXYN c x y 0 := by
  apply BitVec.eq_of_getLsbD_eq
  intro i hi
  interval_cases i <;> simp [wordXYN]

/-! ### Encoding a decoded opcode (30_encoding.md R38, R39) -/

/-- Where every bit is examined, the examined bits are the whole opcode. -/
theorem Word.and_ffff (op : Word) : op &&& 0xFFFF = op := BitVec.and_allOnes

section Fields
variable {op : Word} {c : Nibble}

theorem wordNNN_of_fields {a : Addr12} (h : (decodeRecord op).cls = c ∧ (decodeRecord op).nnn = a) :
    wordNNN c a = op &&& 0xFFFF := by
  obtain ⟨rfl, rfl⟩ := h
  rw [Word.and_ffff, wordNNN_decodeRecord]

theorem wordXNN_of_fields {x : Reg} {nn : Byte}
    (h : (decodeRecord op).cls = c ∧ (decodeRecord op).x = x ∧ (decodeRecord op).nn = nn) :
    wordXNN c x nn = op &&& 0xFFFF := by
  obtain ⟨rfl, rfl, rfl⟩ := h
  rw [Word.and_ffff, wordXNN_decodeRecord]

theorem wordXYN_of_fields {x y : Reg} {n : Nibble} (h : (decodeRecord op).cls = c ∧ (decodeRecord op).x = x
    ∧ (decodeRecord op).y = y ∧ (decodeRecord op).n = n) : wordXYN c x y n = op &&& 0xFFFF := by
  obtain ⟨rfl, rfl, rfl, rfl⟩ := h
  rw [Word.and_ffff, wordXYN_decodeRecord]

theorem wordXNN_of_byte {nn : Byte} (h : (decodeRecord op).cls = c ∧ (decodeRecord op).nn = nn) :
    wordXNN c 0 nn = op &&& 0xF0FF := by
  obtain ⟨rfl, rfl⟩ := h
  rw [← wordXNN_and_byte _ (decodeRecord op).x, wordXNN_decodeRecord]

theorem wordXYN_of_registers {x y : Reg}
    (h : (decodeRecord op).cls = c ∧ (decodeRecord op).x = x ∧ (decodeRecord op).y = y) :
    wordXYN c x y 0 = op &&& 0xFFF0 := by
  obtain ⟨rfl, rfl, rfl⟩ := h
  rw [← wordXYN_and_registers _ _ _ (decodeRecord op).n, wordXYN_decodeRecord]

/-- An opcode with the fields of an instruction is that instruction's opcode on the examined bits. -/
theorem encode_of_decodesTo {i : Instr} (h : (decodeRecord op).DecodesTo (.instr i)) :
    encode i = op &&& usedBits i := by
  cases i with
  | cls => exact wordXNN_of_byte h
  | ret => exact wordXNN_of_byte h
  | jp nnn => exact wordNNN_of_fields h
  | call nnn => exact wordNNN_of_fields h
  | seByte x nn => exact wordXNN_of_fields h
  | sneByte x nn => exact wordXNN_of_fields h
  | seReg x y => exact wordXYN_of_registers h
  | ldByte x nn => exact wordXNN_of_fields h
  | addByte x nn => exact wordXNN_of_fields h
  | ldReg x y => exact wordXYN_of_fields h
  | orReg x y => exact wordXYN_of_fields h
  | andReg x y => exact wordXYN_of_fields h
  | xorReg x y => exact wordXYN_of_fields h
  | addReg x y => exact wordXYN_of_fields h
  | subReg x y => exact wordXYN_of_fields h
  | shr x y => exact wordXYN_of_fields h
  | subn x y => exact wordXYN_of_fields h
  | shl x y => exact wordXYN_of_fields h
  | sneReg x y => exact wordXYN_of_registers h
  | ldI nnn => exact wordNNN_of_fields h
  | jpV0 nnn => exact wordNNN_of_fields h
  | rnd x nn => exact wordXNN_of_fields h
  | drw x y n => exact wordXYN_of_fields h
  | skp x => exact wordXNN_of_fields h
  | sknp x => exact wordXNN_of_fields h
  | ldVxDt x => exact wordXNN_of_fields h
  | ldVxK x => exact wordXNN_of_fields h
  | ldDtVx x => exact wordXNN_of_fields h
  | ldStVx x => exact wordXNN_of_fields h
  | addI x => exact wordXNN_of_fields h
  | ldF x => exact wordXNN_of_fields h
  | ldB x => exact wordXNN_of_fields h
  | storeRegs x => exact wordXNN_of_fields h
  | loadRegs x => exact wordXNN_of_fields h

end Fields

/-- Settles O2: a decoded opcode has its instruction's fields, which make up the examined bits. -/
theorem encodeOfDecode : Obligations.EncodeOfDecode :=
  fun op i h => encode_of_decodesTo ((decode_eq_iff op (.instr i)).mp h)

/-! ### The fields as numbers (30_encoding.md R34, R37) -/

theorem decodeRecord_cls_toNat (op : Word) : (decodeRecord op).cls.toNat = op.toNat / 4096 := by
  have hop := op.isLt
  rw [decodeRecord_cls, BitVec.extractLsb'_toNat, Nat.shiftRight_eq_div_pow]
  omega

theorem decodeRecord_x_val (op : Word) : (decodeRecord op).x.val = op.toNat / 256 % 16 := by
  change (op.extractLsb' 8 4).toNat = _
  rw [BitVec.extractLsb'_toNat, Nat.shiftRight_eq_div_pow]

theorem decodeRecord_y_val (op : Word) : (decodeRecord op).y.val = op.toNat / 16 % 16 := by
  change (op.extractLsb' 4 4).toNat = _
  rw [BitVec.extractLsb'_toNat, Nat.shiftRight_eq_div_pow]

theorem decodeRecord_n_toNat (op : Word) : (decodeRecord op).n.toNat = op.toNat % 16 := by
  rw [decodeRecord_n, BitVec.extractLsb'_toNat, Nat.shiftRight_zero]

theorem decodeRecord_nn_toNat (op : Word) : (decodeRecord op).nn.toNat = op.toNat % 256 := by
  rw [decodeRecord_nn, BitVec.extractLsb'_toNat, Nat.shiftRight_zero]

theorem decodeRecord_nnn_toNat (op : Word) : (decodeRecord op).nnn.toNat = op.toNat % 4096 := by
  rw [decodeRecord_nnn, BitVec.extractLsb'_toNat, Nat.shiftRight_zero]

theorem decodeRecord_wellFormed (op : Word) : (decodeRecord op).wellFormed = true := by
  simp [Record.wellFormed, decodeRecord]

/-- Settles O3, field by field. -/
theorem recordFieldsSitAtTheirBits : Obligations.RecordFieldsSitAtTheirBits := fun op =>
  ⟨rfl, decodeRecord_cls_toNat op, decodeRecord_x_val op, decodeRecord_y_val op, decodeRecord_n_toNat op,
    decodeRecord_nn_toNat op, decodeRecord_nnn_toNat op, decodeRecord_wellFormed op⟩

/-! ### The unrecognized opcodes (30_encoding.md R40) -/

theorem Decoded.toInstr?_eq_none_iff (d : Decoded) : d.toInstr? = none ↔ ∃ why, d = .unrecognized why := by
  cases d with
  | instr i => simp [Decoded.toInstr?]
  | unrecognized why => simp [Decoded.toInstr?]

theorem decodesTo_system_iff (op : Word) : (decodeRecord op).DecodesTo (.unrecognized .system) ↔
    op.toNat / 4096 = 0x0 ∧ op.toNat % 256 ≠ 0xE0 ∧ op.toNat % 256 ≠ 0xEE := by
  rw [← decodeRecord_cls_toNat, ← decodeRecord_nn_toNat]
  simp [Record.DecodesTo, ← BitVec.toNat_inj]

theorem decodesTo_arithmetic_iff (op : Word) : (decodeRecord op).DecodesTo (.unrecognized .arithmetic) ↔
    op.toNat / 4096 = 0x8 ∧ op.toNat % 16 ∈ [0x8, 0x9, 0xA, 0xB, 0xC, 0xD, 0xF] := by
  have hn : ∀ n : Nibble, n ∉ [0x0, 0x1, 0x2, 0x3, 0x4, 0x5, 0x6, 0x7, 0xE] ↔
      n.toNat ∈ [0x8, 0x9, 0xA, 0xB, 0xC, 0xD, 0xF] := by decide
  rw [← decodeRecord_cls_toNat, ← decodeRecord_n_toNat, ← hn, Record.DecodesTo, ← BitVec.toNat_inj]
  rfl

theorem decodesTo_keySkip_iff (op : Word) : (decodeRecord op).DecodesTo (.unrecognized .keySkip) ↔
    op.toNat / 4096 = 0xE ∧ op.toNat % 256 ≠ 0x9E ∧ op.toNat % 256 ≠ 0xA1 := by
  rw [← decodeRecord_cls_toNat, ← decodeRecord_nn_toNat]
  simp [Record.DecodesTo, ← BitVec.toNat_inj]

theorem decodesTo_misc_iff (op : Word) : (decodeRecord op).DecodesTo (.unrecognized .misc) ↔
    op.toNat / 4096 = 0xF ∧ op.toNat % 256 ∉ [0x07, 0x0A, 0x15, 0x18, 0x1E, 0x29, 0x33, 0x55, 0x65] := by
  rw [← decodeRecord_cls_toNat, ← decodeRecord_nn_toNat]
  simp [Record.DecodesTo, ← BitVec.toNat_inj]

/-- Settles O5: an opcode is no instruction when it has the fields of one of the four classes of R40. -/
theorem unrecognizedOpcodesAreExactlyTheListed : Obligations.UnrecognizedOpcodesAreExactlyTheListed := by
  intro op
  rw [Decoded.toInstr?_eq_none_iff, ← decodesTo_system_iff, ← decodesTo_arithmetic_iff, ← decodesTo_keySkip_iff,
    ← decodesTo_misc_iff]
  simp only [decode_eq_iff]
  constructor
  · rintro ⟨why, h⟩
    cases why with
    | system => exact .inl h
    | arithmetic => exact .inr (.inl h)
    | keySkip => exact .inr (.inr (.inl h))
    | misc => exact .inr (.inr (.inr h))
  · rintro (h | h | h | h) <;> exact ⟨_, h⟩

/-! ### Dispatch and the opcode map (30_encoding.md R38, R39) -/

/-- An opcode has the pattern's value in every field that the row examines whole. -/
theorem OpcodeRow.extractLsb'_of_fits {row : OpcodeRow} {op : Word} (h : row.fits op = true) (start len : Nat)
    (hmask : row.mask.extractLsb' start len = BitVec.allOnes len) :
    op.extractLsb' start len = row.pattern.extractLsb' start len := by
  rw [OpcodeRow.fits, beq_iff_eq] at h
  rw [← h, BitVec.extractLsb'_and, hmask, BitVec.and_allOnes]

/-- Rows that an opcode fits agree on the bits both examine. -/
theorem OpcodeRow.pattern_and_of_fits {a b : OpcodeRow} {op : Word} (ha : a.fits op = true) (hb : b.fits op = true) :
    a.pattern &&& b.mask = b.pattern &&& a.mask := by
  rw [OpcodeRow.fits, beq_iff_eq] at ha hb
  rw [← ha, ← hb, BitVec.and_assoc, BitVec.and_assoc, BitVec.and_comm a.mask]

/-- Any two rows of the map differ on the bits both examine. -/
theorem opcodeTable_pairwise : opcodeTable.Pairwise fun a b => a.pattern &&& b.mask ≠ b.pattern &&& a.mask := by
  decide

/-- Among rows that differ pairwise on the bits both examine, an opcode fits one at most. -/
theorem eq_singleton_of_all_fit {rows : List OpcodeRow} {row : OpcodeRow} {op : Word} (hmem : row ∈ rows)
    (hfit : ∀ r ∈ rows, r.fits op = true)
    (hdiffer : rows.Pairwise fun a b => a.pattern &&& b.mask ≠ b.pattern &&& a.mask) : rows = [row] := by
  match rows with
  | [] => exact absurd hmem List.not_mem_nil
  | [a] => rw [List.mem_singleton.mp hmem]
  | a :: b :: rest =>
    have hab : a.pattern &&& b.mask ≠ b.pattern &&& a.mask := List.rel_of_pairwise_cons hdiffer List.mem_cons_self
    have hb : b ∈ a :: b :: rest := List.mem_cons_of_mem a List.mem_cons_self
    exact absurd (OpcodeRow.pattern_and_of_fits (hfit a List.mem_cons_self) (hfit b hb)) hab

/-- An opcode that fits a row of the map fits no other. -/
theorem opcodeTable_filter_of_fits {row : OpcodeRow} {op : Word} (hmem : row ∈ opcodeTable)
    (hfits : row.fits op = true) : opcodeTable.filter (fun r => r.fits op) = [row] :=
  eq_singleton_of_all_fit (List.mem_filter.mpr ⟨hmem, hfits⟩) (fun _ hr => (List.mem_filter.mp hr).2)
    (opcodeTable_pairwise.filter _)

/-- Every instruction's row is in the map, and the instruction's opcode fits it. -/
theorem tableRow_mem_and_fits_encode : ∀ i : Instr, Laws.TableRow.Statement i
  | .cls => Laws.TableRow.cls
  | .ret => Laws.TableRow.ret
  | .jp nnn => Laws.TableRow.jp nnn
  | .call nnn => Laws.TableRow.call nnn
  | .seByte x nn => Laws.TableRow.seByte x nn
  | .sneByte x nn => Laws.TableRow.sneByte x nn
  | .seReg x y => Laws.TableRow.seReg x y
  | .ldByte x nn => Laws.TableRow.ldByte x nn
  | .addByte x nn => Laws.TableRow.addByte x nn
  | .ldReg x y => Laws.TableRow.ldReg x y
  | .orReg x y => Laws.TableRow.orReg x y
  | .andReg x y => Laws.TableRow.andReg x y
  | .xorReg x y => Laws.TableRow.xorReg x y
  | .addReg x y => Laws.TableRow.addReg x y
  | .subReg x y => Laws.TableRow.subReg x y
  | .shr x y => Laws.TableRow.shr x y
  | .subn x y => Laws.TableRow.subn x y
  | .shl x y => Laws.TableRow.shl x y
  | .sneReg x y => Laws.TableRow.sneReg x y
  | .ldI nnn => Laws.TableRow.ldI nnn
  | .jpV0 nnn => Laws.TableRow.jpV0 nnn
  | .rnd x nn => Laws.TableRow.rnd x nn
  | .drw x y n => Laws.TableRow.drw x y n
  | .skp x => Laws.TableRow.skp x
  | .sknp x => Laws.TableRow.sknp x
  | .ldVxDt x => Laws.TableRow.ldVxDt x
  | .ldVxK x => Laws.TableRow.ldVxK x
  | .ldDtVx x => Laws.TableRow.ldDtVx x
  | .ldStVx x => Laws.TableRow.ldStVx x
  | .addI x => Laws.TableRow.addI x
  | .ldF x => Laws.TableRow.ldF x
  | .ldB x => Laws.TableRow.ldB x
  | .storeRegs x => Laws.TableRow.storeRegs x
  | .loadRegs x => Laws.TableRow.loadRegs x

/-- An instruction's row examines no bit that its pattern ignores. -/
theorem usedBits_and_mask (i : Instr) : usedBits i &&& (tableRow i).mask = (tableRow i).mask := by
  cases i <;> simp only [usedBits, tableRow] <;> decide

/-- An opcode that decodes to an instruction fits the instruction's row, as the instruction's own opcode does. -/
theorem tableRow_fits_of_decodesTo {op : Word} {i : Instr} (h : (decodeRecord op).DecodesTo (.instr i)) :
    (tableRow i).fits op = true := by
  obtain ⟨-, hfits⟩ := tableRow_mem_and_fits_encode i
  rw [OpcodeRow.fits, beq_iff_eq] at hfits ⊢
  rwa [encode_of_decodesTo h, BitVec.and_assoc, usedBits_and_mask] at hfits

/-- Every row examines the class, and in the classes with a secondary key that key too. -/
theorem opcodeTable_examines_keys : ∀ row ∈ opcodeTable,
    row.mask.extractLsb' 12 4 = BitVec.allOnes 4
      ∧ (row.pattern.extractLsb' 12 4 ∈ [0x0, 0xE, 0xF] → row.mask.extractLsb' 0 8 = BitVec.allOnes 8)
      ∧ (row.pattern.extractLsb' 12 4 = 0x8 → row.mask.extractLsb' 0 4 = BitVec.allOnes 4) := by decide

/-- Every row's pattern is itself the opcode of an instruction. -/
theorem opcodeTable_pattern_toInstr? : ∀ row ∈ opcodeTable, (decode row.pattern).toInstr? ≠ none := by decide

/-- If an opcode that fits a row is unrecognized, so is the row's pattern, which has the same dispatch keys. -/
theorem decodesTo_pattern_of_fits {row : OpcodeRow} {op : Word} {why : Unrecognized} (hmem : row ∈ opcodeTable)
    (hfits : row.fits op = true) (h : (decodeRecord op).DecodesTo (.unrecognized why)) :
    (decodeRecord row.pattern).DecodesTo (.unrecognized why) := by
  obtain ⟨hcls, hbyte, hnibble⟩ := opcodeTable_examines_keys row hmem
  have hc : (decodeRecord op).cls = (decodeRecord row.pattern).cls := OpcodeRow.extractLsb'_of_fits hfits 12 4 hcls
  have hnn (hk : (decodeRecord row.pattern).cls ∈ [0x0, 0xE, 0xF]) :
      (decodeRecord op).nn = (decodeRecord row.pattern).nn := OpcodeRow.extractLsb'_of_fits hfits 0 8 (hbyte hk)
  have hn (hk : (decodeRecord row.pattern).cls = 0x8) : (decodeRecord op).n = (decodeRecord row.pattern).n :=
    OpcodeRow.extractLsb'_of_fits hfits 0 4 (hnibble hk)
  cases why with
  | arithmetic =>
    rw [Record.DecodesTo, hc] at h
    rwa [hn h.1] at h
  | _ =>
    rw [Record.DecodesTo, hc] at h
    rwa [hnn (by rw [h.1]; decide)] at h

/-- An unrecognized opcode fits no row of the map. -/
theorem opcodeTable_filter_of_unrecognized {op : Word} {why : Unrecognized}
    (h : (decodeRecord op).DecodesTo (.unrecognized why)) : opcodeTable.filter (fun r => r.fits op) = [] := by
  rw [List.filter_eq_nil_iff]
  intro row hmem hfits
  refine opcodeTable_pattern_toInstr? row hmem ((Decoded.toInstr?_eq_none_iff _).mpr ⟨why, ?_⟩)
  exact dispatch_of_decodesTo (decodesTo_pattern_of_fits hmem hfits h)

/-- Settles O4: an opcode that decodes to an instruction fits its row and so no other, and an unrecognized one fits
none. -/
theorem everyOpcodeFitsItsOwnRowOnly : Obligations.EveryOpcodeFitsItsOwnRowOnly := by
  intro op
  cases hd : decode op with
  | instr i =>
    exact opcodeTable_filter_of_fits (tableRow_mem_and_fits_encode i).1
      (tableRow_fits_of_decodesTo ((decode_eq_iff op _).mp hd))
  | unrecognized why => exact opcodeTable_filter_of_unrecognized ((decode_eq_iff op _).mp hd)

/-! ### Sample words (30_encoding.md R39) -/

/-- Settles O6, by evaluating the decoder on each of the written-out words. -/
theorem sampleWordsDecode : Obligations.SampleWordsDecode := by
  unfold Obligations.SampleWordsDecode
  decide

end Sys2Proof

/-! The step: what it makes of the opcode it fetches, and the status it reports. -/

namespace Sys2Proof
namespace Machine

/-! ### What a step makes of the opcode it fetches (30_encoding.md R36, R40) -/

theorem nextCommand_of_pending_cons {s : State} {c : Command} {cs : List Command} (hp : s.port.pending = c :: cs) :
    nextCommand s = c := by rw [nextCommand, hp]

theorem takeCommand_of_pending_cons {s : State} {c : Command} {cs : List Command} (hp : s.port.pending = c :: cs) :
    takeCommand s = s.setPending cs := by rw [takeCommand, hp]

theorem changesOnly_beginStep (r : Byte) (s : State) :
    ChangesOnly (fun f => f = .pc ∨ f = .rand ∨ f = .stepStatus) s (beginStep r s) := by
  intro f hf
  cases f with
  | pc => exact absurd (.inl rfl) hf
  | rand => exact absurd (.inr (.inl rfl)) hf
  | stepStatus => exact absurd (.inr (.inr rfl)) hf
  | _ => rfl

/-- Settles O7: taking the next command, a pending step or a free one, leaves the opcode fetched and the load status,
so that the step runs the decoded instruction. -/
theorem stepRunsTheDecodedInstruction : Obligations.StepRunsTheDecodedInstruction := by
  intro s i hd hl
  refine ⟨fun r rest hp => ?_, fun hp => ?_, fun r => ⟨rfl, rfl, rfl, changesOnly_beginStep r s⟩⟩
  · rw [step, nextCommand_of_pending_cons hp, takeCommand_of_pending_cons hp]
    exact cmdStep_instr r (s.setPending rest) i hd hl
  · rw [step_of_ready hp hl, takeCommand_of_pending_nil hp, hd]
    rfl

/-- Settles O9: with no failed load the step of an unrecognized opcode is the fetch alone. -/
theorem unrecognizedOpcodeIsANoOp : Obligations.UnrecognizedOpcodeIsANoOp := by
  intro s r why hd hl
  refine ⟨beginStep r s, cmdStep_unrecognized r s why hd hl, rfl, rfl, ?_⟩
  exact (changesOnly_beginStep r s).mono fun f hf => hf.imp_right Or.symm

/-! ### The status a step reports (44_keys_timers.md R81) -/

theorem leastKey_eq_none_iff (k : Keys) : leastKey k = none ↔ k = 0 := by
  constructor
  · intro h
    apply BitVec.eq_of_getLsbD_eq
    intro j hj
    exact (leastKey_none k h ⟨j, hj⟩).trans BitVec.getLsbD_zero.symm
  · rintro rfl
    rfl

/-- `FX0A` reports `AwaitingKey` when no key is pressed, and otherwise leaves the status. -/
theorem takeKey_stepStatus (x : Reg) (s : State) :
    (takeKey x s).port.stepStatus = if s.key = 0 then .awaitingKey else s.port.stepStatus := by
  rcases takeKey_cases x s with ⟨k, hk, h⟩ | ⟨hk, h⟩
  · have hne : s.key ≠ 0 := fun h0 => by simp [(leastKey_eq_none_iff s.key).mpr h0] at hk
    rw [h, if_neg hne, State.setV_port]
  · rw [h, if_pos ((leastKey_eq_none_iff s.key).mp hk), State.setStepStatus_port]

/-- Only a wait touches the status. -/
theorem Effect.stepStatus {i : Instr} {s t : State} (h : Effect s i t) :
    t.port.stepStatus = s.port.stepStatus ∨ ∃ x, i = .ldVxK x := by
  cases h with
  | wait x => exact .inr ⟨x, rfl⟩
  | _ => exact .inl rfl

/-- An instruction that runs while the status is `Done` leaves `AwaitingKey` when it is `FX0A` with no key pressed. -/
theorem exec_awaitingKey_iff {i : Instr} {s t : State} (hs : s.port.stepStatus = .done) (h : exec i s = .next t) :
    t.port.stepStatus = .awaitingKey ↔ (∃ x, i = .ldVxK x) ∧ s.key = 0 := by
  by_cases hi : ∃ x, i = .ldVxK x
  · obtain ⟨x, rfl⟩ := hi
    cases h
    by_cases hkey : s.key = 0 <;> simp [takeKey_stepStatus, hkey, hs]
  · have hst := (effect_of_exec h).stepStatus.resolve_right hi
    simp [hst, hs, hi]

/-- Settles O51: the fetch sets the status `Done`, which only `FX0A` changes. -/
theorem awaitingKeyOnlyAtAWaitWithNoKey : Obligations.AwaitingKeyOnlyAtAWaitWithNoKey := by
  intro r s t _ h
  rcases cmdStep_cases r s t h with ⟨i, hd, hexec⟩ | ⟨why, hd, rfl⟩
  · simp only [hd, Decoded.instr.injEq]
    exact exec_awaitingKey_iff (s := beginStep r s) rfl hexec
  · simp [hd, beginStep]

end Machine
end Sys2Proof

/-! Control transfer: jumps, calls, returns and the comparing skips (40_control_flow.md). -/

namespace Sys2Proof
namespace Machine

/-! ### Jumps (40_control_flow.md R47, R53) -/

@[simp] theorem addrOf_toNat (a : Addr12) : (addrOf a).toNat = a.toNat := by
  rw [addrOf, BitVec.toNat_setWidth_of_le (by decide)]

@[simp] theorem wordOfByte_toNat (b : Byte) : (wordOfByte b).toNat = b.toNat := by
  rw [wordOfByte, BitVec.toNat_setWidth_of_le (by decide)]

/-- Settles O23: the opcode is the encoder's word, and zero extension keeps the number. -/
theorem jumpSetsThePc : Obligations.JumpSetsThePc := by
  intro nnn s
  have hword : BitVec.ofNat 16 (0x1000 + nnn.toNat) = encode (.jp nnn) := (wordNNN_eq_ofNat 0x1 nnn).symm
  refine ⟨?_, _, rfl, addrOf_toNat nnn, changesOnly_setPc s _⟩
  rw [hword]
  exact decodeOfEncode (.jp nnn)

/-- The sum of an address and a byte is at most 0x10FE, so that it does not wrap. -/
theorem addrOf_add_wordOfByte_toNat (a : Addr12) (b : Byte) :
    (addrOf a + wordOfByte b).toNat = a.toNat + b.toNat := by
  have ha := a.isLt
  have hb := b.isLt
  rw [BitVec.toNat_add, addrOf_toNat, wordOfByte_toNat]
  exact Nat.mod_eq_of_lt (by omega)

/-- Settles O24: the sum does not wrap. -/
theorem jumpWithOffsetAddsVZero : Obligations.JumpWithOffsetAddsVZero :=
  fun nnn s => ⟨_, rfl, addrOf_add_wordOfByte_toNat nnn (s.getV 0), changesOnly_setPc s _⟩

/-! ### The return stack (10_state.md R12, R17; 40_control_flow.md R46, R48) -/

theorem State.push_stack_getElem (s : State) (w : Word) (room : s.sp.val < 16) (k : Fin 16) :
    (s.push w room).stack[k.val] = if k.val = s.sp.val then w else s.stack[k.val] := by
  simp only [State.push_stack, Vector.getElem_set, eq_comm]

/-- The top entry of a stack with `k + 1` entries in use is entry `k`. -/
theorem State.top_of_sp_eq {s : State} {k : Fin 16} (hk : s.sp.val = k.val + 1) (used : 0 < s.sp.val) :
    s.top used = s.stack[k.val] := by
  simp only [State.top, hk, Nat.add_sub_cancel]

theorem changesOnly_push (s : State) (w : Word) (room : s.sp.val < 16) :
    ChangesOnly (fun f => f = .sp ∨ ∃ k : Fin 16, k.val = s.sp.val ∧ f = .stackEntry k) s (s.push w room) := by
  intro f hf
  cases f with
  | sp => exact absurd (.inl rfl) hf
  | stackEntry k =>
    have hk : k.val ≠ s.sp.val := fun h => hf (.inr ⟨k, h, rfl⟩)
    exact (State.push_stack_getElem s w room k).trans (if_neg hk)
  | _ => rfl

theorem changesOnly_dropTop (s : State) : ChangesOnly (fun f => f = .sp) s s.dropTop := by
  intro f hf
  cases f with
  | sp => exact absurd rfl hf
  | _ => rfl

theorem changesOnly_setOverflow (s : State) : ChangesOnly (fun f => f = .stackOverflow) s s.setOverflow := by
  intro f hf
  cases f with
  | stackOverflow => exact absurd rfl hf
  | _ => rfl

theorem changesOnly_setUnderflow (s : State) : ChangesOnly (fun f => f = .stackUnderflow) s s.setUnderflow := by
  intro f hf
  cases f with
  | stackUnderflow => exact absurd rfl hf
  | _ => rfl

/-- A call that finds room changes `pc`, the depth and the entry pushed. -/
theorem changesOnly_push_setPc (s : State) (w target : Word) (room : s.sp.val < 16) :
    ChangesOnly (fun f => f = .pc ∨ f = .sp ∨ ∃ k : Fin 16, k.val = s.sp.val ∧ f = .stackEntry k) s
      ((s.push w room).setPc target) :=
  ((changesOnly_push s w room).mono fun _ => .inr).trans ((changesOnly_setPc _ target).mono fun _ => .inl)

/-- A return that finds an entry changes `pc` and the depth. -/
theorem changesOnly_dropTop_setPc (s : State) (target : Word) :
    ChangesOnly (fun f => f = .pc ∨ f = .sp) s (s.dropTop.setPc target) :=
  ((changesOnly_dropTop s).mono fun _ => .inr).trans ((changesOnly_setPc _ target).mono fun _ => .inl)

/-- Settles O25, by whether the stack has room. -/
theorem callPushesOrRecordsOverflow : Obligations.CallPushesOrRecordsOverflow := by
  intro nnn s
  refine ⟨callTo (addrOf nnn) s, rfl, fun room => ?_, fun full => ?_⟩
  · rw [callTo_of_room _ room]
    refine ⟨addrOf_toNat nnn, rfl, State.push_stack_getElem s s.pc room, ?_⟩
    exact (changesOnly_push_setPc s s.pc (addrOf nnn) room).mono
      fun _ => .imp_right (.imp_right fun ⟨k, _, hf⟩ => ⟨k, hf⟩)
  · rw [callTo_of_full _ (by omega)]
    exact ⟨rfl, changesOnly_setOverflow s⟩

/-- Settles O26, by whether the stack holds an entry. -/
theorem retPopsOrRecordsUnderflow : Obligations.RetPopsOrRecordsUnderflow := by
  intro s
  refine ⟨returnFromCall s, rfl, fun k hk => ?_, fun empty => ?_⟩
  · have used : 0 < s.sp.val := by omega
    rw [returnFromCall_of_used used]
    have hdepth : s.dropTop.sp.val = k.val := Nat.sub_eq_of_eq_add hk
    exact ⟨State.top_of_sp_eq hk used, hdepth, changesOnly_dropTop_setPc s _⟩
  · rw [returnFromCall_of_empty (by omega)]
    exact ⟨rfl, changesOnly_setUnderflow s⟩

/-- Settles O27: the entry that the call pushed is the one that the return pops. -/
theorem callThenReturnComesBack : Obligations.CallThenReturnComesBack := by
  intro nnn s t u room hcall hstack hsp
  obtain ⟨t', ht', hpush, -⟩ := callPushesOrRecordsOverflow nnn s
  obtain rfl : t' = t := Host.Outcome.next.inj (ht'.symm.trans hcall)
  obtain ⟨-, hdepth, hentries, -⟩ := hpush room
  obtain ⟨w, hret, hpop, -⟩ := retPopsOrRecordsUnderflow u
  obtain ⟨hpc, hback, -⟩ := hpop ⟨s.sp.val, room⟩ (by rw [hsp, hdepth])
  refine ⟨w, hret, ?_, Fin.ext hback⟩
  calc w.pc = u.stack[s.sp.val] := hpc
    _ = t'.stack[s.sp.val] := by rw [hstack]
    _ = s.pc := (hentries ⟨s.sp.val, room⟩).trans (if_pos rfl)

/-! ### The comparing skips (40_control_flow.md R45, R49 to R52) -/

theorem changesOnly_skipIf (c : Bool) (s : State) : ChangesOnly (fun f => f = .pc) s (skipIf c s) := by
  rw [skipIf_eq]
  exact changesOnly_setPc s _

theorem skipIf_pc_toNat (c : Bool) (s : State) :
    (skipIf c s).pc.toNat = if c then (s.pc.toNat + 2) % 65536 else s.pc.toNat := by
  cases c <;> rfl

theorem skipIf_beq_pc_toNat (a b : Byte) (s : State) :
    (skipIf (a == b) s).pc.toNat = if a.toNat = b.toNat then (s.pc.toNat + 2) % 65536 else s.pc.toNat := by
  simp only [skipIf_pc_toNat, beq_iff_eq, BitVec.toNat_inj]

theorem skipIf_bne_pc_toNat (a b : Byte) (s : State) :
    (skipIf (a != b) s).pc.toNat = if a.toNat = b.toNat then s.pc.toNat else (s.pc.toNat + 2) % 65536 := by
  simp only [skipIf_pc_toNat, bne_iff_ne, ne_eq, BitVec.toNat_inj, ite_not]

/-- Settles O28: each of the four is a skip on two bytes being equal or different. -/
theorem comparingSkipsSkipOnTheirCondition : Obligations.ComparingSkipsSkipOnTheirCondition := fun x y nn s =>
  ⟨⟨_, rfl, skipIf_beq_pc_toNat (s.getV x) nn s, changesOnly_skipIf _ s⟩,
    ⟨_, rfl, skipIf_bne_pc_toNat (s.getV x) nn s, changesOnly_skipIf _ s⟩,
    ⟨_, rfl, skipIf_beq_pc_toNat (s.getV x) (s.getV y) s, changesOnly_skipIf _ s⟩,
    ⟨_, rfl, skipIf_bne_pc_toNat (s.getV x) (s.getV y) s, changesOnly_skipIf _ s⟩⟩

end Machine
end Sys2Proof

/-! Loads, arithmetic, logic, shifts and random: the result as a number or bit by bit, what `VF` holds after it, and
which registers change (41_alu.md). -/

namespace Sys2Proof
namespace Machine

/-! ### Results without a flag (41_alu.md R57 to R62, R68) -/

/-- Settles O29: the opcode is the encoder's word, and the byte is read back from the register written. -/
theorem loadImmediateWritesVx : Obligations.LoadImmediateWritesVx := by
  intro x nn s
  have hword : BitVec.ofNat 16 (0x6000 + 256 * x.val + nn.toNat) = encode (.ldByte x nn) :=
    (wordXNN_eq_ofNat 0x6 x nn).symm
  refine ⟨?_, _, rfl, State.getV_setV_self s x nn, changesOnly_setV s x nn⟩
  rw [hword]
  exact decodeOfEncode (.ldByte x nn)

/-- Settles O30: addition of bytes is addition modulo 256. -/
theorem addImmediateWrapsWithoutFlag : Obligations.AddImmediateWrapsWithoutFlag := by
  intro x nn s
  refine ⟨_, rfl, ?_, changesOnly_setV s x _⟩
  rw [State.getV_setV_self]
  exact BitVec.toNat_add (s.getV x) nn

/-- Settles O31: each of the four writes its result to `V[x]`, and the logic works on each bit alone. -/
theorem copyAndLogicWriteVxOnly : Obligations.CopyAndLogicWriteVxOnly := by
  intro x y s
  refine ⟨⟨_, rfl, State.getV_setV_self s x _, changesOnly_setV s x _⟩,
    ⟨_, rfl, fun b => ?_, changesOnly_setV s x _⟩, ⟨_, rfl, fun b => ?_, changesOnly_setV s x _⟩,
    ⟨_, rfl, fun b => ?_, changesOnly_setV s x _⟩⟩
  · rw [State.getV_setV_self, BitVec.getLsbD_or]
  · rw [State.getV_setV_self, BitVec.getLsbD_and]
  · rw [State.getV_setV_self, BitVec.getLsbD_xor]

/-- Settles O36: the mask works on each bit of the byte that the port holds, which the start of the step put there. -/
theorem randomIsMasked : Obligations.RandomIsMasked := by
  intro x nn s
  refine ⟨⟨_, rfl, fun b => ?_, changesOnly_setV s x _⟩, fun r => rfl⟩
  rw [State.getV_setV_self, BitVec.getLsbD_and]

/-! ### A result and its flag (41_alu.md R56) -/

/-- The destination holds the result, `VF` included. -/
@[simp] theorem writeFlagThenResult_getV_self (x : Reg) (f b : Byte) (s : State) :
    (writeFlagThenResult x f b s).getV x = b := by
  rw [writeFlagThenResult_getV, if_pos rfl]

/-- `VF` holds the flag where it is not the destination. -/
theorem writeFlagThenResult_getV_vf {x : Reg} (hx : x ≠ 15) (f b : Byte) (s : State) :
    (writeFlagThenResult x f b s).getV 15 = f := by
  rw [writeFlagThenResult_getV, if_neg hx.symm]
  exact if_pos rfl

theorem flagByte_decide (p : Prop) [Decidable p] : flagByte (decide p) = if p then 1 else 0 := by
  simp only [flagByte, decide_eq_true_eq]

@[simp] theorem flagByte_toNat (b : Bool) : (flagByte b).toNat = b.toNat := by
  cases b <;> rfl

/-! ### Addition and subtraction (41_alu.md R63, R64, R66) -/

/-- Settles O32: the carry is the flag, and the sum of bytes is the sum modulo 256. -/
theorem addSetsCarry : Obligations.AddSetsCarry := by
  intro x y s
  refine ⟨_, rfl, ?_, fun hx => ?_, changesOnly_writeFlagThenResult s x _ _⟩
  · rw [writeFlagThenResult_getV_self]
    exact BitVec.toNat_add (s.getV x) (s.getV y)
  · rw [writeFlagThenResult_getV_vf hx]
    exact flagByte_decide _

theorem Byte.sub_toNat (a b : Byte) : (a - b).toNat = (a.toNat + 256 - b.toNat) % 256 := by
  have hb := b.isLt
  rw [BitVec.toNat_sub]
  congr 1
  omega

/-- A difference and its no-borrow flag, written in the order of R56: both subtractions are this one, with minuend
and subtrahend exchanged. -/
theorem writeFlagThenResult_sub (x : Reg) (a b : Byte) (s t : State)
    (ht : t = writeFlagThenResult x (noBorrowFlag a b) (a - b) s) :
    (t.getV x).toNat = (a.toNat + 256 - b.toNat) % 256
      ∧ (x ≠ 15 → t.getV 15 = if a.toNat ≥ b.toNat then 1 else 0)
      ∧ ChangesOnly (fun f => f = .reg x ∨ f = .reg 15) s t := by
  subst ht
  refine ⟨?_, fun hx => ?_, changesOnly_writeFlagThenResult s x _ _⟩
  · rw [writeFlagThenResult_getV_self, Byte.sub_toNat]
  · rw [writeFlagThenResult_getV_vf hx]
    exact flagByte_decide _

/-- Settles O33: `V[x]` is the minuend. -/
theorem subSetsNoBorrow : Obligations.SubSetsNoBorrow :=
  fun x y s => ⟨_, rfl, writeFlagThenResult_sub x (s.getV x) (s.getV y) s _ rfl⟩

/-- Settles O34: `V[y]` is the minuend. -/
theorem reverseSubSetsNoBorrow : Obligations.ReverseSubSetsNoBorrow :=
  fun x y s => ⟨_, rfl, writeFlagThenResult_sub x (s.getV y) (s.getV x) s _ rfl⟩

/-! ### Shifts (41_alu.md R65, R67) -/

theorem Byte.ushiftRight_one_toNat (a : Byte) : (a >>> 1).toNat = a.toNat / 2 := by
  rw [BitVec.toNat_ushiftRight, Nat.shiftRight_one]

theorem Byte.shiftLeft_one_toNat (a : Byte) : (a <<< 1).toNat = 2 * a.toNat % 256 := by
  rw [BitVec.toNat_shiftLeft, Nat.shiftLeft_eq, Nat.mul_comm, pow_one]

theorem lowBitFlag_toNat (a : Byte) : (lowBitFlag a).toNat = a.toNat % 2 := by
  rw [lowBitFlag, flagByte_toNat, BitVec.getLsbD, Nat.toNat_testBit, pow_zero, Nat.div_one]

/-- Bit 7 is the last, so that nothing stands above it. -/
theorem highBitFlag_toNat (a : Byte) : (highBitFlag a).toNat = a.toNat / 128 := by
  have ha := a.isLt
  rw [highBitFlag, flagByte_toNat, BitVec.getLsbD, Nat.toNat_testBit]
  omega

/-- Settles O35: a shift by one is a division or a doubling, and its flag is the bit that it drops. -/
theorem shiftsMoveOneBitIntoVf : Obligations.ShiftsMoveOneBitIntoVf := by
  intro x y s
  refine ⟨⟨_, rfl, ?_, fun hx => ?_, changesOnly_writeFlagThenResult s x _ _⟩,
    ⟨_, rfl, ?_, fun hx => ?_, changesOnly_writeFlagThenResult s x _ _⟩⟩
  · rw [writeFlagThenResult_getV_self, Byte.ushiftRight_one_toNat]
  · rw [writeFlagThenResult_getV_vf hx, lowBitFlag_toNat]
  · rw [writeFlagThenResult_getV_self, Byte.shiftLeft_one_toNat]
  · rw [writeFlagThenResult_getV_vf hx, highBitFlag_toNat]

end Machine
end Sys2Proof

/-! The index register and the transfers between registers and memory (42_index_memory.md). -/

namespace Sys2Proof
namespace Machine

/-! ### The bytes a transfer reaches (20_memory.md R21, R28) -/

/-- Addresses less than the size of memory apart stay apart when they are reduced. -/
theorem phys_indexAddr_ne (s : State) {j k : Nat} (hjk : j < k) (hk : k < 4096) :
    phys (indexAddr s j) ≠ phys (indexAddr s k) := by
  simp only [phys, indexAddr, Config.memSize]
  omega

/-- An operation on memory that reaches only the `n` addresses from `I` on changes only the bytes they reduce to. -/
theorem changesOnly_bytes {s t : State} {n : Nat}
    (hframe : ∃ m, t = { s with mem := m } ∧ (s.mem.wf = true → m.wf = true))
    (hother : ∀ a, (∀ k, k < n → phys a ≠ phys (indexAddr s k)) → t.memRead a = s.memRead a) :
    ChangesOnly (fun f => ∃ a k, f = .byte a ∧ k < n ∧ phys a = phys (indexAddr s k)) s t := by
  obtain ⟨m, rfl, -⟩ := hframe
  exact changesOnly_mem _ s m fun a ha => hother a fun k hk h => ha ⟨a, k, rfl, hk, h⟩

/-! ### Digits stored (42_index_memory.md R72) -/

/-- Each digit is read back: no later digit lands at its address. -/
theorem storeDigits_memRead (b : Byte) {s : State} (hwf : s.mem.wf = true) :
    (storeDigits b s).memRead (indexAddr s 0) = hundreds b ∧ (storeDigits b s).memRead (indexAddr s 1) = tens b
      ∧ (storeDigits b s).memRead (indexAddr s 2) = ones b := by
  have h01 : phys (indexAddr s 0) ≠ phys (indexAddr s 1) := phys_indexAddr_ne s (by decide) (by decide)
  have h02 : phys (indexAddr s 0) ≠ phys (indexAddr s 2) := phys_indexAddr_ne s (by decide) (by decide)
  have h12 : phys (indexAddr s 1) ≠ phys (indexAddr s 2) := phys_indexAddr_ne s (by decide) (by decide)
  have hwf0 := s.memWrite_wf (indexAddr s 0) (hundreds b) hwf
  have hwf1 := State.memWrite_wf _ (indexAddr s 1) (tens b) hwf0
  refine ⟨?_, ?_, State.memRead_memWrite_eq _ _ _ _ hwf1 rfl⟩
  · rw [storeDigits, State.memRead_memWrite_ne _ _ _ _ h02, State.memRead_memWrite_ne _ _ _ _ h01,
      State.memRead_memWrite_eq _ _ _ _ hwf rfl]
  · rw [storeDigits, State.memRead_memWrite_ne _ _ _ _ h12, State.memRead_memWrite_eq _ _ _ _ hwf0 rfl]

/-- Settles O39: the three digits stand at their addresses, and a byte that none of them reaches is kept. -/
theorem storeBcdWritesThreeDigits : Obligations.StoreBcdWritesThreeDigits := by
  intro x s hwf
  obtain ⟨hhundreds, htens, hones⟩ := digits_toNat (s.getV x)
  obtain ⟨hI, hI1, hI2⟩ := storeDigits_memRead (s.getV x) hwf
  exact ⟨_, rfl, (congrArg BitVec.toNat hI).trans hhundreds, (congrArg BitVec.toNat hI1).trans htens,
    (congrArg BitVec.toNat hI2).trans hones,
    changesOnly_bytes (storeDigits_frame _ s) (storeDigits_memRead_other _ s)⟩

/-! ### Registers stored and loaded (42_index_memory.md R73, R74) -/

/-- Settles O40: each register stands at its address, and a byte that no register reaches is kept. -/
theorem storeRegsWritesThemInOrder : Obligations.StoreRegsWritesThemInOrder := by
  intro x s hwf
  refine ⟨_, rfl, fun k hk => storeFirst_memRead_reg hwf hk rfl, ?_⟩
  exact (changesOnly_bytes (storeFirst_frame (x.val + 1) s) (storeFirst_memRead_other _ s)).mono
    fun _ ⟨a, k, hf, hk, ha⟩ => ⟨a, k, hf, Nat.le_of_lt_succ hk, ha⟩

theorem loadFirst_getV_of_le {x k : Reg} (s : State) (hk : k ≤ x) :
    (loadFirst (x.val + 1) s).getV k = s.memRead (indexAddr s k.val) := by
  rw [loadFirst_getV _ s k (Nat.succ_le_of_lt x.isLt), if_pos (Nat.lt_succ_of_le hk)]

theorem loadFirst_getV_of_not_le {x k : Reg} (s : State) (hk : ¬ k ≤ x) :
    (loadFirst (x.val + 1) s).getV k = s.getV k := by
  rw [loadFirst_getV _ s k (Nat.succ_le_of_lt x.isLt), if_neg fun h => hk (Nat.le_of_lt_succ h)]

/-- Loading registers changes the registers loaded. -/
theorem changesOnly_loadFirst (x : Reg) (s : State) :
    ChangesOnly (fun f => ∃ k, f = .reg k ∧ k ≤ x) s (loadFirst (x.val + 1) s) := by
  have hother : ∀ k : Reg, ¬ k ≤ x → (loadFirst (x.val + 1) s).getV k = s.getV k :=
    fun k => loadFirst_getV_of_not_le s
  obtain ⟨v, hv⟩ := loadFirst_frame (x.val + 1) s
  rw [hv] at hother ⊢
  exact changesOnly_v _ s v fun k hk => hother k fun hkx => hk ⟨k, rfl, hkx⟩

/-- Settles O41: each register up to `x` holds the byte at its address, and nothing else changes. -/
theorem loadRegsReadsThemInOrder : Obligations.LoadRegsReadsThemInOrder :=
  fun x s => ⟨_, rfl, fun _ hk => loadFirst_getV_of_le s hk, changesOnly_loadFirst x s⟩

/-- Settles O42: the load reads each register's byte where the store wrote it. -/
theorem storeThenLoadGivesTheRegistersBack : Obligations.StoreThenLoadGivesTheRegistersBack := by
  intro x s t u hwf hstore hmem hi
  obtain ⟨t', ht', hstored, -⟩ := storeRegsWritesThemInOrder x s hwf
  obtain rfl : t' = t := Host.Outcome.next.inj (ht'.symm.trans hstore)
  obtain ⟨w, hload, hloaded, -⟩ := loadRegsReadsThemInOrder x u
  refine ⟨w, hload, fun k hk => ?_⟩
  calc w.getV k = u.memRead (u.i.toNat + k.val) := hloaded k hk
    _ = t'.memRead (s.i.toNat + k.val) := by rw [State.memRead, hmem, hi, State.memRead]
    _ = s.getV k := hstored k hk

/-! ### Writes of the index register (42_index_memory.md R69 to R71) -/

/-- A glyph address is at most 0x4FB, so that it does not wrap. -/
theorem wordOfByte_mul_five_toNat (b : Byte) : (wordOfByte b * 5).toNat = b.toNat * 5 := by
  have hb := b.isLt
  have hlt : b.toNat * 5 < 2 ^ 16 := by omega
  rw [BitVec.toNat_mul, wordOfByte_toNat]
  exact Nat.mod_eq_of_lt hlt

theorem add_wordOfByte_toNat (w : Word) (b : Byte) : (w + wordOfByte b).toNat = (w.toNat + b.toNat) % 65536 := by
  rw [BitVec.toNat_add, wordOfByte_toNat]

/-- Settles O38: each of the three is one write of `I`, whose value is known as a number. -/
theorem indexWritesSetI : Obligations.IndexWritesSetI := fun x nnn s =>
  ⟨⟨_, rfl, addrOf_toNat nnn, changesOnly_setI s _⟩,
    ⟨_, rfl, add_wordOfByte_toNat s.i (s.getV x), changesOnly_setI s _⟩,
    ⟨_, rfl, wordOfByte_mul_five_toNat (s.getV x), changesOnly_setI s _⟩⟩

end Machine
end Sys2Proof

/-! The framebuffer: what clearing and drawing do to the pixels and to `VF`, and that nothing else changes
(43_display.md). -/

namespace Sys2Proof
namespace Machine

/-! ### Clearing (43_display.md R76) -/

theorem changesOnly_setDisp (s : State) (d : Display) :
    ChangesOnly (fun f => ∃ px py, f = .pixel px py) s (s.setDisp d) := by
  intro f hf
  cases f with
  | pixel px py => exact absurd ⟨px, py, rfl⟩ hf
  | _ => rfl

/-- Settles O45: the display is replaced by the clear one. -/
theorem clearResetsEveryPixel : Obligations.ClearResetsEveryPixel :=
  fun s => ⟨_, rfl, fun px py _ _ => Display.pixel_clear px py, changesOnly_setDisp s _⟩

/-! ### Drawing once (43_display.md R77) -/

theorem flagByte_eq_one_iff (b : Bool) : flagByte b = 1 ↔ b = true := by
  cases b <;> decide

theorem flagByte_eq_zero_iff (b : Bool) : flagByte b = 0 ↔ ¬ b = true := by
  cases b <;> decide

/-- The loop over rows and bits inverts the picture. -/
theorem blitSprite_pixel (x y : Reg) (n : Nibble) (s : State) {px py : Nat} (hx : px < 64) (hy : py < 32) :
    (blitSprite x y n s).1.pixel px py = (s.disp.pixel px py ^^ spriteBit s x y n px py) := by
  rw [← spriteBit_eq]
  exact (blitRows_spec s _ _ _ _).1 px py hx hy

/-- The loop over rows and bits reports a pixel of the picture that was set. -/
theorem blitSprite_collision_iff (x y : Reg) (n : Nibble) (s : State) :
    (blitSprite x y n s).2 = true ↔
      ∃ px py, px < 64 ∧ py < 32 ∧ spriteBit s x y n px py = true ∧ s.disp.pixel px py = true := by
  simp only [← spriteBit_eq]
  exact (blitRows_spec s _ _ _ _).2.trans (or_iff_right Bool.false_ne_true)

/-- Settles O46: the two results of the loop are the display and, as a byte, the flag. -/
theorem drawInvertsTheClippedSprite : Obligations.DrawInvertsTheClippedSprite := by
  intro x y n s
  have hvf : ((s.setDisp (blitSprite x y n s).1).setV Reg.vf (flagByte (blitSprite x y n s).2)).getV 15
      = flagByte (blitSprite x y n s).2 := State.getV_setV_self _ Reg.vf _
  refine ⟨_, rfl, fun px py hx hy => blitSprite_pixel x y n s hx hy, ?_, ?_, ?_⟩
  · rw [hvf, flagByte_eq_one_iff, blitSprite_collision_iff]
  · rw [hvf, flagByte_eq_zero_iff, blitSprite_collision_iff]
  · exact ((changesOnly_setDisp s _).mono fun _ => .inr).trans ((changesOnly_setV _ Reg.vf _).mono fun _ => .inl)

/-! ### Drawing twice (90_conflicts.md C6) -/

/-- A draw leaves its own picture in place, unless it overwrites a coordinate. -/
theorem spriteBit_of_changesOnly {s t : State} {x y : Reg} (hx : x ≠ 15) (hy : y ≠ 15)
    (h : ChangesOnly (fun f => f = .reg 15 ∨ ∃ px py, f = .pixel px py) s t) (n : Nibble) (px py : Nat) :
    spriteBit t x y n px py = spriteBit s x y n px py := by
  have hvx : t.getV x = s.getV x := h (.reg x) (by simpa using hx)
  have hvy : t.getV y = s.getV y := h (.reg y) (by simpa using hy)
  have hi : t.i = s.i := h .index (by simp)
  have hmem : ∀ a, t.memRead a = s.memRead a := fun a => h (.byte a) (by simp)
  simp only [spriteBit, hvx, hvy, hi, hmem]

/-- Settles O47: both draws invert the same picture, so that the second undoes the first and finds set the covered
pixels that the first found clear. -/
theorem drawingTwiceRestoresTheDisplay : Obligations.DrawingTwiceRestoresTheDisplay := by
  intro x y n s t u hx hy hdraw hagain
  obtain ⟨t', ht', hpixel, -, -, hframe⟩ := drawInvertsTheClippedSprite x y n s
  obtain rfl : t' = t := Host.Outcome.next.inj (ht'.symm.trans hdraw)
  obtain ⟨u', hu', hpixel', hflag, -, -⟩ := drawInvertsTheClippedSprite x y n t'
  obtain rfl : u' = u := Host.Outcome.next.inj (hu'.symm.trans hagain)
  simp only [spriteBit_of_changesOnly hx hy hframe] at hpixel' hflag
  refine ⟨Display.ext_pixel _ _ fun px py hpx hpy => ?_, hflag.trans ?_⟩
  · rw [hpixel' px py hpx hpy, hpixel px py hpx hpy, Bool.xor_assoc, Bool.xor_self, Bool.xor_false]
  · refine exists_congr fun px => exists_congr fun py => and_congr_right fun hpx => and_congr_right fun hpy =>
      and_congr_right fun hcovered => ?_
    rw [hpixel px py hpx hpy, hcovered, Bool.xor_true, Bool.not_eq_true']

end Machine
end Sys2Proof

/-! Keypad and timers: the key skips, the wait for a key and how long it lasts, and the timer transfers
(44_keys_timers.md). -/

namespace Sys2Proof
namespace Machine

/-! ### The wait for a key (44_keys_timers.md R81) -/

/-- A pressed key below which none is pressed is the least one. -/
theorem leastKey_eq_some {key : Keys} {k : Reg} (hk : key.getLsbD k.val = true)
    (hlow : ∀ j : Reg, j < k → key.getLsbD j.val = false) : leastKey key = some k := by
  cases h : leastKey key with
  | none => exact absurd ((leastKey_none key h k).symm.trans hk) Bool.false_ne_true
  | some j =>
    obtain ⟨hj, hjlow⟩ := leastKey_some key j h
    rcases lt_trichotomy j k with hjk | rfl | hkj
    · exact absurd ((hlow j hjk).symm.trans hj) Bool.false_ne_true
    · rfl
    · exact absurd ((hjlow k hkj).symm.trans hk) Bool.false_ne_true

theorem byteOfKey_toNat (k : Reg) : (byteOfKey k).toNat = k.val := by
  rw [byteOfKey, BitVec.toNat_ofNat]
  exact Nat.mod_eq_of_lt (lt_trans k.isLt (by decide))

theorem takeKey_of_leastKey_eq_some (x : Reg) {s : State} {k : Reg} (h : leastKey s.key = some k) :
    takeKey x s = s.setV x (byteOfKey k) := by rw [takeKey, h]

theorem takeKey_of_key_eq_zero (x : Reg) {s : State} (h : s.key = 0) :
    takeKey x s = (rewind s).setStepStatus .awaitingKey := by rw [takeKey, (leastKey_eq_none_iff s.key).mpr h]

theorem changesOnly_setStepStatus (s : State) (x : StepStatus) :
    ChangesOnly (fun f => f = .stepStatus) s (s.setStepStatus x) := by
  intro f hf
  cases f with
  | stepStatus => exact absurd rfl hf
  | _ => rfl

/-- Settles O49, by whether a least key is pressed or none is. -/
theorem waitForKeyTakesTheLowestOrRewinds : Obligations.WaitForKeyTakesTheLowestOrRewinds := by
  intro x s
  refine ⟨takeKey x s, rfl, fun k hk hlow => ?_, fun hnone => ?_⟩
  · rw [takeKey_of_leastKey_eq_some x (leastKey_eq_some hk hlow), State.getV_setV_self]
    exact ⟨byteOfKey_toNat k, changesOnly_setV s x _⟩
  · rw [takeKey_of_key_eq_zero x hnone]
    exact ⟨rfl, rfl, ((changesOnly_setPc s _).mono fun _ => .inl).trans
      ((changesOnly_setStepStatus _ _).mono fun _ => .inr)⟩

/-! ### A wait that lasts (44_keys_timers.md R81, 95_test_vectors.md E10) -/

/-- The state after a step with the random byte `r` that found no key pressed. -/
def waited (r : Byte) (s : State) : State :=
  s.setPort { s.port with rand := r, stepStatus := .awaitingKey }

/-- A step at `FX0A` with no key pressed: the rewind undoes the advance of the fetch. -/
theorem applyCommand_step_of_wait {x : Reg} {s : State} (r : Byte) (hd : decode (fetchOpcode s) = .instr (.ldVxK x))
    (hkey : s.key = 0) (hl : s.port.loadStatus ≠ .loadFailure) : applyCommand (.step r) s = .next (waited r s) := by
  have hpc : s.pc + 2 - 2 = s.pc := BitVec.add_sub_cancel s.pc 2
  have hwait : takeKey x (beginStep r s) = (rewind (beginStep r s)).setStepStatus .awaitingKey :=
    takeKey_of_key_eq_zero x hkey
  calc applyCommand (.step r) s = exec (.ldVxK x) (beginStep r s) := cmdStep_instr r s (.ldVxK x) hd hl
    _ = .next ((rewind (beginStep r s)).setStepStatus .awaitingKey) := congrArg Host.Outcome.next hwait
    _ = .next ((waited r s).setPc (s.pc + 2 - 2)) := rfl
    _ = .next (waited r s) := by rw [hpc]; rfl

theorem changesOnly_waited (r : Byte) (s : State) :
    ChangesOnly (fun f => f = .rand ∨ f = .stepStatus) s (waited r s) := by
  intro f hf
  cases f with
  | rand => exact absurd (.inl rfl) hf
  | stepStatus => exact absurd (.inr rfl) hf
  | _ => rfl

/-- Settles O50, by induction on the steps after the first: the state after a step of the wait still fetches `FX0A`
with no key pressed and no failed load. -/
theorem waitingForAKeyChangesNothing : Obligations.WaitingForAKeyChangesNothing := by
  intro x r rs
  induction rs generalizing r with
  | nil =>
    intro s hd hkey hl
    exact ⟨waited r s, runCommands_cons_next _ [] s _ (applyCommand_step_of_wait r hd hkey hl), rfl,
      changesOnly_waited r s⟩
  | cons r' rs ih =>
    intro s hd hkey hl
    obtain ⟨t, hrun, hstatus, hframe⟩ := ih r' (waited r s) hd hkey hl
    have hfirst := runCommands_cons_next _ ((r' :: rs).map .step) s _ (applyCommand_step_of_wait r hd hkey hl)
    exact ⟨t, hfirst.trans hrun, hstatus, (changesOnly_waited r s).trans hframe⟩

/-! ### The key skips (44_keys_timers.md R78, R79) -/

theorem keyDown_iff (s : State) (b : Byte) :
    keyDown s b = true ↔ b.toNat < 16 ∧ s.key.getLsbD b.toNat = true := by
  rw [keyDown, Bool.and_eq_true, decide_eq_true_iff]

/-- Settles O48: both skip on the key being down or not. -/
theorem keySkipsFollowTheKeypad : Obligations.KeySkipsFollowTheKeypad := by
  intro x s
  refine ⟨⟨_, rfl, ?_, changesOnly_skipIf _ s⟩, ⟨_, rfl, ?_, changesOnly_skipIf _ s⟩⟩
  · simp only [skipIf_pc_toNat, keyDown_iff]
  · simp only [skipIf_pc_toNat, Bool.not_eq_true', ← Bool.not_eq_true, keyDown_iff, ite_not]

/-! ### The timer transfers (44_keys_timers.md R80, R82, R83) -/

theorem changesOnly_setDt (s : State) (b : Byte) : ChangesOnly (fun f => f = .dt) s (s.setDt b) := by
  intro f hf
  cases f with
  | dt => exact absurd rfl hf
  | _ => rfl

theorem changesOnly_setSt (s : State) (b : Byte) : ChangesOnly (fun f => f = .st) s (s.setSt b) := by
  intro f hf
  cases f with
  | st => exact absurd rfl hf
  | _ => rfl

/-- Settles O52: each of the three is one write. -/
theorem timerTransfersMoveOneByte : Obligations.TimerTransfersMoveOneByte := fun x s =>
  ⟨⟨_, rfl, State.getV_setV_self s x s.dt, changesOnly_setV s x s.dt⟩,
    ⟨_, rfl, rfl, changesOnly_setDt s (s.getV x)⟩,
    ⟨_, rfl, rfl, changesOnly_setSt s (s.getV x)⟩⟩

end Machine
end Sys2Proof

/-! The frame of every instruction (60_exceptions.md R84, R87). -/

namespace Sys2Proof
namespace Machine

/-! ### The frames of the operations that have several outcomes -/

/-- A call changes `pc`, the depth and the entry pushed, or, with the stack full, only records it. -/
theorem changesOnly_callTo (a : Addr12) (s : State) : ChangesOnly (mayWrite (.call a) s) s (callTo (addrOf a) s) := by
  rcases callTo_cases (addrOf a) s with ⟨room, h⟩ | ⟨-, h⟩ <;> rw [h]
  · exact (changesOnly_push_setPc s s.pc (addrOf a) room).mono fun _ => .imp_right (.imp_right .inr)
  · exact (changesOnly_setOverflow s).mono fun _ hf => .inr (.inr (.inl hf))

/-- A return changes `pc` and the depth, or, with the stack empty, only records it. -/
theorem changesOnly_returnFromCall (s : State) : ChangesOnly (mayWrite .ret s) s (returnFromCall s) := by
  rcases returnFromCall_cases s with ⟨used, h⟩ | ⟨-, h⟩ <;> rw [h]
  · exact (changesOnly_dropTop_setPc s (s.top used)).mono fun _ => .imp_right .inl
  · exact (changesOnly_setUnderflow s).mono fun _ hf => .inr (.inr hf)

/-- The wait for a key changes its destination, or, with no key pressed, `pc` and the status. -/
theorem changesOnly_takeKey (x : Reg) (s : State) : ChangesOnly (mayWrite (.ldVxK x) s) s (takeKey x s) := by
  rcases takeKey_cases x s with ⟨k, -, h⟩ | ⟨-, h⟩ <;> rw [h]
  · exact (changesOnly_setV s x _).mono fun _ => .inl
  · exact ((changesOnly_setPc s _).mono fun _ hf => .inr (.inl hf)).trans
      ((changesOnly_setStepStatus _ _).mono fun _ hf => .inr (.inr hf))

/-- Storing registers changes the bytes at the addresses from `I` on, one for each register stored. -/
theorem changesOnly_storeFirst (x : Reg) (s : State) :
    ChangesOnly (mayWrite (.storeRegs x) s) s (storeFirst (x.val + 1) s) :=
  (changesOnly_bytes (storeFirst_frame (x.val + 1) s) (storeFirst_memRead_other _ s)).mono
    fun _ ⟨a, k, hf, hk, ha⟩ => ⟨a, k, hf, Nat.le_of_lt_succ hk, ha⟩

/-! ### Every instruction -/

/-- Settles O53: each instruction is one operation of the model, whose frame is known. -/
theorem everyInstructionCompletesWithinItsFrame : Obligations.EveryInstructionCompletesWithinItsFrame := by
  intro i s
  cases i with
  | cls => exact ⟨_, rfl, changesOnly_setDisp s _⟩
  | ret => exact ⟨_, rfl, changesOnly_returnFromCall s⟩
  | jp nnn => exact ⟨_, rfl, changesOnly_setPc s _⟩
  | call nnn => exact ⟨_, rfl, changesOnly_callTo nnn s⟩
  | seByte x nn => exact ⟨_, rfl, changesOnly_skipIf _ s⟩
  | sneByte x nn => exact ⟨_, rfl, changesOnly_skipIf _ s⟩
  | seReg x y => exact ⟨_, rfl, changesOnly_skipIf _ s⟩
  | ldByte x nn => exact ⟨_, rfl, changesOnly_setV s x _⟩
  | addByte x nn => exact ⟨_, rfl, changesOnly_setV s x _⟩
  | ldReg x y => exact ⟨_, rfl, changesOnly_setV s x _⟩
  | orReg x y => exact ⟨_, rfl, changesOnly_setV s x _⟩
  | andReg x y => exact ⟨_, rfl, changesOnly_setV s x _⟩
  | xorReg x y => exact ⟨_, rfl, changesOnly_setV s x _⟩
  | addReg x y => exact ⟨_, rfl, changesOnly_writeFlagThenResult s x _ _⟩
  | subReg x y => exact ⟨_, rfl, changesOnly_writeFlagThenResult s x _ _⟩
  | shr x y => exact ⟨_, rfl, changesOnly_writeFlagThenResult s x _ _⟩
  | subn x y => exact ⟨_, rfl, changesOnly_writeFlagThenResult s x _ _⟩
  | shl x y => exact ⟨_, rfl, changesOnly_writeFlagThenResult s x _ _⟩
  | sneReg x y => exact ⟨_, rfl, changesOnly_skipIf _ s⟩
  | ldI nnn => exact ⟨_, rfl, changesOnly_setI s _⟩
  | jpV0 nnn => exact ⟨_, rfl, changesOnly_setPc s _⟩
  | rnd x nn => exact ⟨_, rfl, changesOnly_setV s x _⟩
  | drw x y n =>
    obtain ⟨t, ht, -, -, -, hframe⟩ := drawInvertsTheClippedSprite x y n s
    exact ⟨t, ht, hframe⟩
  | skp x => exact ⟨_, rfl, changesOnly_skipIf _ s⟩
  | sknp x => exact ⟨_, rfl, changesOnly_skipIf _ s⟩
  | ldVxDt x => exact ⟨_, rfl, changesOnly_setV s x _⟩
  | ldVxK x => exact ⟨_, rfl, changesOnly_takeKey x s⟩
  | ldDtVx x => exact ⟨_, rfl, changesOnly_setDt s _⟩
  | ldStVx x => exact ⟨_, rfl, changesOnly_setSt s _⟩
  | addI x => exact ⟨_, rfl, changesOnly_setI s _⟩
  | ldF x => exact ⟨_, rfl, changesOnly_setI s _⟩
  | ldB x => exact ⟨_, rfl, changesOnly_bytes (storeDigits_frame _ s) (storeDigits_memRead_other _ s)⟩
  | storeRegs x => exact ⟨_, rfl, changesOnly_storeFirst x s⟩
  | loadRegs x => exact ⟨_, rfl, changesOnly_loadFirst x s⟩

end Machine
end Sys2Proof

/-! The host's commands: what each of them keeps, when one stops, what a frame is, and that a state which lists
commands runs them (60_exceptions.md R84, R89, R91, R92, R94). -/

namespace Sys2Proof
namespace Machine

/-! ### Keypad and timers (60_exceptions.md R89, R92) -/

theorem changesOnly_setKey (s : State) (k : Keys) : ChangesOnly (fun f => f = .key) s (s.setKey k) := by
  intro f hf
  cases f with
  | key => exact absurd rfl hf
  | _ => rfl

/-- Settles O18: the command is one write. -/
theorem setKeysWritesTheKeypadOnly : Obligations.SetKeysWritesTheKeypadOnly :=
  fun s k => ⟨_, rfl, rfl, changesOnly_setKey s k⟩

theorem cmdTick_dt_toNat (s : State) : (cmdTick s).dt.toNat = s.dt.toNat - 1 := countdown_toNat s.dt

theorem cmdTick_st_toNat (s : State) : (cmdTick s).st.toNat = s.st.toNat - 1 := countdown_toNat s.st

theorem changesOnly_cmdTick (s : State) : ChangesOnly (fun f => f = .dt ∨ f = .st) s (cmdTick s) :=
  ((changesOnly_setDt s _).mono fun _ => .inl).trans ((changesOnly_setSt _ _).mono fun _ => .inr)

/-- A frame without its tick and its key sample is its steps. -/
theorem filter_setKeys_cons_steps (keys : Keys) (rs : List Byte) :
    ((Command.setKeys keys :: rs.map .step).filter fun c => c ≠ .setKeys keys) = rs.map .step := by
  rw [List.filter_cons_of_neg (by simp), List.filter_eq_self]
  simp

/-- Settles O17: subtraction of numbers is floored at 0, and the frame's list ends in its one tick. -/
theorem tickCountsDownBothTimers : Obligations.TickCountsDownBothTimers := by
  refine ⟨fun s => ⟨cmdTick s, rfl, ?_⟩, fun clockRate keys rands => ?_⟩
  · rw [cmdTick_dt_toNat, cmdTick_st_toNat]
    exact ⟨fun _ => rfl, fun h => by omega, fun _ => rfl, fun h => by omega, changesOnly_cmdTick s⟩
  · refine ⟨.setKeys keys :: rands.toList.map .step, rfl, by simp, ?_⟩
    rw [filter_setKeys_cons_steps, List.length_map, Vector.length_toList]

/-! ### What a step leaves to the host -/

/-- No instruction touches the keypad, the load status or the host's list of commands. -/
theorem Effect.keeps_host {i : Instr} {s t : State} (h : Effect s i t) :
    t.key = s.key ∧ t.port.loadStatus = s.port.loadStatus ∧ t.port.pending = s.port.pending := by
  cases h with
  | _ => exact ⟨rfl, rfl, rfl⟩

/-- A step of the host does not touch them either. -/
theorem cmdStep_keeps_host {r : Byte} {s t : State} (h : cmdStep r s = .next t) :
    t.key = s.key ∧ t.port.loadStatus = s.port.loadStatus ∧ t.port.pending = s.port.pending := by
  rcases cmdStep_effect h with rfl | ⟨i, heff⟩
  · exact ⟨rfl, rfl, rfl⟩
  · exact heff.keeps_host

/-! ### Runs of commands (60_exceptions.md R91, R94) -/

/-- A run of commands that ends passes through the end of its first command. -/
theorem runCommands_cons_eq_next {c : Command} {cs : List Command} {s t : State}
    (h : runCommands (c :: cs) s = .next t) : ∃ u, applyCommand c s = .next u ∧ runCommands cs u = .next t := by
  rw [runCommands] at h
  split at h
  next u hu => exact ⟨u, hu, h⟩
  next => cases h
  next => cases h

theorem runCommands_cons_fault {c : Command} (cs : List Command) {s : State} {f : Fault}
    (h : applyCommand c s = .fault f) : runCommands (c :: cs) s = .fault f := by
  rw [runCommands, h]

/-- Steps run under the keys sampled before them. -/
theorem runCommands_steps_key {rs : List Byte} {s t : State} (h : runCommands (rs.map .step) s = .next t) :
    t.key = s.key := by
  induction rs generalizing s with
  | nil => cases h; rfl
  | cons r rs ih =>
    obtain ⟨u, hu, hrest⟩ := runCommands_cons_eq_next h
    obtain ⟨hkey, -, -⟩ := cmdStep_keeps_host hu
    exact (ih hrest).trans hkey

/-- Settles O19: the frame's run passes through the end of its steps, and the tick comes last. -/
theorem frameIsKeysThenStepsThenOneTick : Obligations.FrameIsKeysThenStepsThenOneTick := by
  intro clockRate keys rands s t h
  obtain ⟨sampled, hkeys, hrest⟩ := runCommands_cons_eq_next h
  cases hkeys
  obtain ⟨u, hsteps, htick⟩ := runCommands_append_next _ [.tick] _ t hrest
  cases htick
  have hkey : u.key = keys := runCommands_steps_key hsteps
  exact ⟨rands.length_toList, hkey, u, hsteps, hkey, cmdTick_dt_toNat u, cmdTick_st_toNat u, changesOnly_cmdTick u⟩

/-! ### When a command completes (60_exceptions.md R84, 70_reset_and_hazards.md R100) -/

/-- With no failed load a step completes: every instruction does, and so does an unrecognized opcode. -/
theorem cmdStep_completes (r : Byte) {s : State} (hl : s.port.loadStatus ≠ .loadFailure) :
    ∃ t, cmdStep r s = .next t := by
  cases hd : decode (fetchOpcode s) with
  | instr i =>
    obtain ⟨t, ht, -⟩ := exec_effect i (beginStep r s)
    exact ⟨t, (cmdStep_instr r s i hd hl).trans ht⟩
  | unrecognized why => exact ⟨_, cmdStep_unrecognized r s why hd hl⟩

theorem cmdStep_of_loadFailure (r : Byte) {s : State} (hl : s.port.loadStatus = .loadFailure) :
    cmdStep r s = .fault .stepAfterLoadFailure := if_pos hl

/-- A load that fits reports it. -/
theorem cmdLoad_loadStatus {image : List Byte} (hfits : imageFits image = true) (s : State) :
    (cmdLoad image s).port.loadStatus = .loaded := by
  rw [cmdLoad, if_pos hfits, State.setLoadStatus_port]

/-- A command whose image fits completes, and leaves no failed load, where none has failed before. -/
theorem applyCommand_completes {c : Command} (hc : c.wellFormed = true) {s : State}
    (hl : s.port.loadStatus ≠ .loadFailure) :
    ∃ t, applyCommand c s = .next t ∧ t.port.loadStatus ≠ .loadFailure := by
  cases c with
  | reset => exact ⟨_, rfl, nofun⟩
  | load image =>
    refine ⟨_, rfl, ?_⟩
    rw [cmdLoad_loadStatus hc]
    nofun
  | setKeys k => exact ⟨_, rfl, hl⟩
  | step r =>
    obtain ⟨t, ht⟩ := cmdStep_completes r hl
    obtain ⟨-, hload, -⟩ := cmdStep_keeps_host ht
    exact ⟨t, ht, hload ▸ hl⟩
  | tick => exact ⟨_, rfl, hl⟩

/-- Settles O21, by induction on the commands: that no load has failed is an invariant of those whose images fit. -/
theorem commandsWithFittingImagesNeverStop : Obligations.CommandsWithFittingImagesNeverStop := by
  intro cs
  induction cs with
  | nil => exact fun s _ hl => ⟨s, rfl, hl⟩
  | cons c cs ih =>
    intro s hfit hl
    obtain ⟨hc, hcs⟩ := (Bool.and_eq_true _ _).mp hfit
    obtain ⟨u, hu, hlu⟩ := applyCommand_completes hc hl
    rw [runCommands_cons_next c cs s u hu]
    exact ih u hcs hlu

/-! ### The host's list of commands is no input of a command (log entry 3) -/

theorem skipIf_setPending (c : Bool) (s : State) (cs : List Command) :
    skipIf c (s.setPending cs) = (skipIf c s).setPending cs := by
  rw [skipIf_eq, skipIf_eq]
  rfl

theorem callTo_setPending (w : Word) (s : State) (cs : List Command) :
    callTo w (s.setPending cs) = (callTo w s).setPending cs := by
  by_cases room : s.sp.val < 16
  · rw [callTo_of_room w room]
    exact callTo_of_room (s := s.setPending cs) w room
  · rw [callTo_of_full w room]
    exact callTo_of_full (s := s.setPending cs) w room

theorem returnFromCall_setPending (s : State) (cs : List Command) :
    returnFromCall (s.setPending cs) = (returnFromCall s).setPending cs := by
  by_cases used : 0 < s.sp.val
  · rw [returnFromCall_of_used used]
    exact returnFromCall_of_used (s := s.setPending cs) used
  · rw [returnFromCall_of_empty used]
    exact returnFromCall_of_empty (s := s.setPending cs) used

theorem takeKey_setPending (x : Reg) (s : State) (cs : List Command) :
    takeKey x (s.setPending cs) = (takeKey x s).setPending cs := by
  unfold takeKey
  rw [State.setPending_key]
  cases leastKey s.key with
  | none => rfl
  | some k => rfl

theorem storeFirst_setPending (n : Nat) (s : State) (cs : List Command) :
    storeFirst n (s.setPending cs) = (storeFirst n s).setPending cs := by
  induction n with
  | zero => rfl
  | succ k ih =>
    rw [storeFirst, ih]
    rfl

theorem loadFirst_setPending (n : Nat) (s : State) (cs : List Command) :
    loadFirst n (s.setPending cs) = (loadFirst n s).setPending cs := by
  induction n with
  | zero => rfl
  | succ k ih =>
    rw [loadFirst, ih]
    rfl

theorem blitSprite_setPending (x y : Reg) (n : Nibble) (s : State) (cs : List Command) :
    blitSprite x y n (s.setPending cs) = blitSprite x y n s :=
  blitRows_congr _ _ _ _ _ _ fun _ => rfl

/-- An instruction passes over the list. -/
theorem exec_setPending {i : Instr} {s t : State} (cs : List Command) (h : exec i s = .next t) :
    exec i (s.setPending cs) = .next (t.setPending cs) := by
  cases i with
  | ret => cases h; exact congrArg _ (returnFromCall_setPending s cs)
  | call nnn => cases h; exact congrArg _ (callTo_setPending _ s cs)
  | seByte x nn => cases h; exact congrArg _ (skipIf_setPending _ s cs)
  | sneByte x nn => cases h; exact congrArg _ (skipIf_setPending _ s cs)
  | seReg x y => cases h; exact congrArg _ (skipIf_setPending _ s cs)
  | sneReg x y => cases h; exact congrArg _ (skipIf_setPending _ s cs)
  | drw x y n =>
    cases h
    simp only [exec, execDrw, blitSprite_setPending]
    rfl
  | skp x => cases h; exact congrArg _ (skipIf_setPending _ s cs)
  | sknp x => cases h; exact congrArg _ (skipIf_setPending _ s cs)
  | ldVxK x => cases h; exact congrArg _ (takeKey_setPending x s cs)
  | storeRegs x => cases h; exact congrArg _ (storeFirst_setPending _ s cs)
  | loadRegs x => cases h; exact congrArg _ (loadFirst_setPending _ s cs)
  | _ => cases h; rfl

/-- A step passes over the list: its fetch does not read it. -/
theorem cmdStep_setPending {r : Byte} {s t : State} (cs : List Command) (hl : s.port.loadStatus ≠ .loadFailure)
    (h : cmdStep r s = .next t) : cmdStep r (s.setPending cs) = .next (t.setPending cs) := by
  rcases cmdStep_cases r s t h with ⟨i, hd, hexec⟩ | ⟨why, hd, rfl⟩
  · exact (cmdStep_instr r (s.setPending cs) i hd hl).trans (exec_setPending cs hexec)
  · exact cmdStep_unrecognized r (s.setPending cs) why hd hl

theorem cmdLoad_setPending (image : List Byte) (s : State) (cs : List Command) :
    cmdLoad image (s.setPending cs) = (cmdLoad image s).setPending cs := by
  unfold cmdLoad
  split <;> rfl

/-- A command completes alike whatever the host's list is, and leaves the list alone; or it stops whatever the list
is. -/
theorem applyCommand_setPending_cases (c : Command) (s : State) :
    (∃ t, applyCommand c s = .next t ∧ t.port.pending = s.port.pending
        ∧ ∀ cs, applyCommand c (s.setPending cs) = .next (t.setPending cs))
      ∨ ∃ f, applyCommand c s = .fault f ∧ ∀ cs, applyCommand c (s.setPending cs) = .fault f := by
  cases c with
  | reset => exact .inl ⟨_, rfl, rfl, fun _ => rfl⟩
  | load image =>
    refine .inl ⟨_, rfl, ?_, fun cs => congrArg _ (cmdLoad_setPending image s cs)⟩
    rcases cmdLoad_cases image s with ⟨-, hload⟩ | ⟨-, hload⟩ <;> rw [hload] <;> rfl
  | setKeys k => exact .inl ⟨_, rfl, rfl, fun _ => rfl⟩
  | step r =>
    by_cases hl : s.port.loadStatus = .loadFailure
    · exact .inr ⟨_, cmdStep_of_loadFailure r hl, fun cs => cmdStep_of_loadFailure (s := s.setPending cs) r hl⟩
    · obtain ⟨t, ht⟩ := cmdStep_completes r hl
      obtain ⟨-, -, hpending⟩ := cmdStep_keeps_host ht
      exact .inl ⟨t, ht, hpending, fun cs => cmdStep_setPending cs hl ht⟩
  | tick => exact .inl ⟨_, rfl, rfl, fun _ => rfl⟩

/-! ### The machine runs the commands its state lists (60_exceptions.md R94) -/

theorem setPending_of_pending_nil {s : State} (hp : s.port.pending = []) : s.setPending [] = s := by
  rw [State.setPending, ← hp]
  rfl

/-- The machine's step on a listed command applies it to the state that lists the rest. -/
theorem step_setPending_cons (c : Command) (cs : List Command) (s : State) :
    step (s.setPending (c :: cs)) = applyCommand c (s.setPending cs) := rfl

theorem run_succ_of_step_next {M : Host.Core} {s t : M.State} (n : Nat) (h : M.step s = .next t) :
    M.run (n + 1) s = M.run n t := by rw [Host.Core.run, h]

theorem run_succ_of_step_fault {M : Host.Core} {s : M.State} {f : M.Fault} (n : Nat) (h : M.step s = .fault f) :
    M.run (n + 1) s = .fault f := by rw [Host.Core.run, h]

/-- Settles O20, by induction on the commands: the machine's step on the first one is its application to the state
without the list, up to the rest of the list. -/
theorem pendingCommandsRunInOrder : Obligations.PendingCommandsRunInOrder := by
  intro cs
  induction cs with
  | nil => exact fun s hp => congrArg Host.Outcome.next (setPending_of_pending_nil hp)
  | cons c cs ih =>
    intro s hp
    have hfirst := step_setPending_cons c cs s
    rcases applyCommand_setPending_cases c s with ⟨t, ht, hkept, hlisted⟩ | ⟨f, hf, hlisted⟩
    · have hrest := run_succ_of_step_next (M := core) cs.length (hfirst.trans (hlisted cs))
      exact (hrest.trans (ih t (hkept.trans hp))).trans (runCommands_cons_next c cs s t ht).symm
    · have hstop := run_succ_of_step_fault (M := core) cs.length (hfirst.trans (hlisted cs))
      exact hstop.trans (runCommands_cons_fault cs hf).symm

end Machine
end Sys2Proof

/-! Reset, load, and the one way to stop (60_exceptions.md R84, 70_reset_and_hazards.md R99, R100). -/

namespace Sys2Proof
namespace Machine

/-! ### Reset (70_reset_and_hazards.md R99) -/

/-- Settles O14: the command's state is the reset state but for the two ports it keeps. -/
theorem resetCommandConstructsTheMachine : Obligations.ResetCommandConstructsTheMachine := by
  refine fun s => ⟨cmdReset s, rfl, fun f hf => ?_, rfl, rfl⟩
  cases f with
  | draws => exact absurd (.inl rfl) hf
  | pending => exact absurd (.inr rfl) hf
  | _ => rfl

/-! ### Load (70_reset_and_hazards.md R100) -/

theorem changesOnly_setLoadStatus (s : State) (x : LoadStatus) :
    ChangesOnly (fun f => f = .loadStatus) s (s.setLoadStatus x) := by
  intro f hf
  cases f with
  | loadStatus => exact absurd rfl hf
  | _ => rfl

/-- No address of an image that fits is reduced: it ends where memory does. -/
theorem phys_entry_add {k : Nat} (hk : k < 3584) : phys (Config.entry + k) = 0x200 + k :=
  Nat.mod_eq_of_lt (Nat.add_lt_add_left hk 0x200)

/-- An image that fits changes the bytes at the addresses from the entry point on, one for each of its own. -/
theorem changesOnly_writeBytes_entry (s : State) {image : List Byte} (hfits : image.length ≤ 3584) :
    ChangesOnly (fun f => ∃ a k, f = .byte a ∧ k < image.length ∧ a % 4096 = 0x200 + k) s
      { s with mem := s.mem.writeBytes Config.entry image } := by
  refine changesOnly_mem _ s _ fun a ha => Memory.read_writeBytes_other image s.mem _ _ fun k hk heq => ?_
  exact ha ⟨a, k, rfl, hk, heq.trans (phys_entry_add (hk.trans_le hfits))⟩

/-- The bytes of an image that fits are read back from the entry point on. -/
theorem memRead_writeBytes_entry {s : State} (hwf : s.mem.wf = true) {image : List Byte}
    (hfits : image.length ≤ 3584) {k : Nat} (hk : k < image.length) :
    State.memRead { s with mem := s.mem.writeBytes Config.entry image } (0x200 + k) = image[k] := by
  rw [State.memRead, show phys (0x200 + k) = 0x200 + k from phys_entry_add (hk.trans_le hfits)]
  exact Memory.read_writeBytes_at image s.mem 0x200 k hwf hk (Nat.add_le_add_left hfits 0x200)

/-- Settles O15, by whether the image fits. -/
theorem loadWritesTheImageOrNothing : Obligations.LoadWritesTheImageOrNothing := by
  intro s image hwf
  refine ⟨cmdLoad image s, rfl, ?_⟩
  rcases cmdLoad_cases image s with ⟨hfits, hload⟩ | ⟨hlarge, hload⟩ <;> rw [hload]
  · refine ⟨fun _ => ⟨rfl, fun k hk => memRead_writeBytes_entry hwf hfits hk, ?_⟩, fun h => absurd hfits h.not_ge⟩
    exact ((changesOnly_writeBytes_entry s hfits).mono fun _ => .inr).trans
      ((changesOnly_setLoadStatus _ _).mono fun _ => .inl)
  · exact ⟨fun h => absurd hlarge h.not_gt, fun _ => ⟨rfl, changesOnly_setLoadStatus s .loadFailure⟩⟩

/-! ### The one way to stop (60_exceptions.md R84, 70_reset_and_hazards.md R100) -/

/-- A command is a step after a failed load and stops by name, or it is not and completes. -/
theorem applyCommand_stops_or_completes (c : Command) (s : State) :
    ((s.port.loadStatus = .loadFailure ∧ ∃ r, c = .step r) ∧ applyCommand c s = .fault .stepAfterLoadFailure)
      ∨ (¬ (s.port.loadStatus = .loadFailure ∧ ∃ r, c = .step r) ∧ ∃ t, applyCommand c s = .next t) := by
  cases c with
  | reset => exact .inr ⟨nofun, _, rfl⟩
  | load image => exact .inr ⟨nofun, _, rfl⟩
  | setKeys k => exact .inr ⟨nofun, _, rfl⟩
  | step r =>
    by_cases hl : s.port.loadStatus = .loadFailure
    · exact .inl ⟨⟨hl, r, rfl⟩, cmdStep_of_loadFailure r hl⟩
    · exact .inr ⟨fun ⟨hfailed, _⟩ => hl hfailed, cmdStep_completes r hl⟩
  | tick => exact .inr ⟨nofun, _, rfl⟩

/-- Settles O16: the machine's step applies the host's next command, and taking it keeps the load status. -/
theorem onlyAStepAfterLoadFailureStops : Obligations.OnlyAStepAfterLoadFailureStops := by
  intro s
  have hstep := applyCommand_stops_or_completes (nextCommand s) (takeCommand s)
  rw [takeCommand_loadStatus] at hstep
  rcases hstep with ⟨hfailed, hfault⟩ | ⟨hfailed, t, hnext⟩
  · exact ⟨⟨fun _ => hfailed, fun _ => hfault⟩, fun h => absurd hfault h⟩
  · exact ⟨⟨fun h => (nomatch hnext.symm.trans h), fun h => absurd h hfailed⟩, fun _ => ⟨t, hnext⟩⟩

end Machine
end Sys2Proof
